-- ==== Sys2Proof/Word.lean ====
section
/-! DEFINITION. The word and byte types of the machine (spec R9, R11, R50): 16-bit memory words,
registers and addresses, and the 8-bit bytes of the backing store. All arithmetic on words is the
arithmetic of BitVec 16, which wraps modulo 2^16 (R11, R69). -/

namespace Sys2Proof

/-- A 16-bit word: memory words, order words, the status word, the OAR, DMA registers, the
accumulator and memory addresses (R9). -/
abbrev Word := BitVec 16

/-- An 8-bit byte of a backing file (R50, R60). -/
abbrev Byte := BitVec 8

/-- A unit index: 0 to 3, and under the `literal` unit-field policy 5 to 7 too (R24, R150).
DESIGN CHOICE, safe: log entry 18. -/
abbrev UnitIndex := Fin 8

end Sys2Proof
end

