-- ==== Sys2Proof/Syntax.lean ====
section
/-! DEFINITION. The orders of a channel program (R82): the twelve kinds, their sizes (R94), and the
decoded order, one constructor per row of spec/opcode_table.json, with its conditional-execute flag
(R81) and the operand fields of R83 to R91 at their exact widths (R7). -/

namespace Sys2Proof

/-- The twelve order kinds, in the order of the table of R82. -/
inductive OrderKind where
  | halt | format | seek | selUnit | read | write | stall
  | stStatus | stOar | selDma | interrupt | jump
  deriving DecidableEq, Repr

/-- Every order kind, in the order of the table of R82. -/
def OrderKind.all : List OrderKind :=
  [.halt, .format, .seek, .selUnit, .read, .write, .stall,
   .stStatus, .stOar, .selDma, .interrupt, .jump]

/-- `SIZE(kind)` in words (R94): 3 for Format, Read and Write, 2 for every other kind. -/
def OrderKind.size : OrderKind → Nat
  | .halt => 2
  | .format => 3
  | .seek => 2
  | .selUnit => 2
  | .read => 3
  | .write => 3
  | .stall => 2
  | .stStatus => 2
  | .stOar => 2
  | .selDma => 2
  | .interrupt => 2
  | .jump => 2

/-- A decoded order. The first argument `c` of every constructor is the conditional-execute flag
`w0[11]` (R81). The operands are the fields of R83 to R91. -/
inductive Instr where
  | halt (c : Bool)
  | format (c : Bool) (recsize : BitVec 4) (track : BitVec 10) (head : BitVec 6) (count : BitVec 8)
  | seek (c : Bool) (track : BitVec 10) (restore clear : Bool)
  | selUnit (c : Bool) (unitfield : BitVec 4)
  | read (c : Bool) (recsize : BitVec 4) (track : BitVec 10) (head : BitVec 6) (record : BitVec 8)
  | write (c : Bool) (recsize : BitVec 4) (track : BitVec 10) (head : BitVec 6) (record : BitVec 8)
  | stall (c : Bool)
  | stStatus (c : Bool) (target : Word)
  | stOar (c : Bool) (target : Word)
  | selDma (c : Bool) (channel : Word) (nch : BitVec 4)
  | interrupt (c : Bool) (vector : Word)
  | jump (c : Bool) (target : Word)
  deriving DecidableEq, Repr

/-- The kind of an order. -/
def Instr.kind : Instr → OrderKind
  | .halt _ => .halt
  | .format _ _ _ _ _ => .format
  | .seek _ _ _ _ => .seek
  | .selUnit _ _ => .selUnit
  | .read _ _ _ _ _ => .read
  | .write _ _ _ _ _ => .write
  | .stall _ => .stall
  | .stStatus _ _ => .stStatus
  | .stOar _ _ => .stOar
  | .selDma _ _ _ => .selDma
  | .interrupt _ _ => .interrupt
  | .jump _ _ => .jump

/-- The conditional-execute flag `C` of an order (R81). -/
def Instr.cond : Instr → Bool
  | .halt c => c
  | .format c _ _ _ _ => c
  | .seek c _ _ _ => c
  | .selUnit c _ => c
  | .read c _ _ _ _ => c
  | .write c _ _ _ _ => c
  | .stall c => c
  | .stStatus c _ => c
  | .stOar c _ => c
  | .selDma c _ _ => c
  | .interrupt c _ => c
  | .jump c _ => c

/-- The same order with its conditional-execute flag clear. -/
def Instr.unconditional : Instr → Instr
  | .halt _ => .halt false
  | .format _ rs t h n => .format false rs t h n
  | .seek _ t r k => .seek false t r k
  | .selUnit _ f => .selUnit false f
  | .read _ rs t h r => .read false rs t h r
  | .write _ rs t h r => .write false rs t h r
  | .stall _ => .stall false
  | .stStatus _ a => .stStatus false a
  | .stOar _ a => .stOar false a
  | .selDma _ ch n => .selDma false ch n
  | .interrupt _ v => .interrupt false v
  | .jump _ a => .jump false a

/-- The natural size of an order in words: its kind's (R94). -/
def Instr.size (i : Instr) : Nat := i.kind.size

end Sys2Proof
end

