-- ==== Sys2Proof/Config.lean ====
section
/-! DEFINITION. What an implementation fixes (R7, R8), and the free values. The parameters of R8 are
ONE record of plain data, `Config.Params`, which a state carries and no step changes, so that every
statement over all states holds for all parameter values. The four parameters the spec leaves OPEN
and the registry of the other devices have as their value at reset an opaque constant, which no proof
can evaluate. The condition of a conditional order is the free value `Config.drawCond` (R124). -/

namespace Sys2Proof.Config

/-- `ORDER_CODE` (R8, R82): the 4-bit code of each order kind, `w0[15:12]`. -/
structure OrderCode where
  halt : BitVec 4
  format : BitVec 4
  seek : BitVec 4
  selUnit : BitVec 4
  read : BitVec 4
  write : BitVec 4
  stall : BitVec 4
  stStatus : BitVec 4
  stOar : BitVec 4
  selDma : BitVec 4
  interrupt : BitVec 4
  jump : BitVec 4
  deriving DecidableEq, Repr

/-- The code of a kind. -/
def OrderCode.codeOf (m : OrderCode) : OrderKind → BitVec 4
  | .halt => m.halt
  | .format => m.format
  | .seek => m.seek
  | .selUnit => m.selUnit
  | .read => m.read
  | .write => m.write
  | .stall => m.stall
  | .stStatus => m.stStatus
  | .stOar => m.stOar
  | .selDma => m.selDma
  | .interrupt => m.interrupt
  | .jump => m.jump

/-- The default `ORDER_CODE` (R82; spec 92 D2, general knowledge of the spec's writer). PRESUMED,
unsafe: log entry 17. -/
def OrderCode.standard : OrderCode where
  halt := 0
  format := 2
  seek := 3
  selUnit := 4
  read := 5
  write := 6
  stall := 7
  stStatus := 9
  stOar := 10
  selDma := 11
  interrupt := 12
  jump := 13

/-- Where an operand field lies: the slot word (0 for `w0`, 1 for `w1`, 2 for `w2`, R80) and the
number of its lowest bit (bit 0 is the least significant, R10). -/
structure FieldPos where
  word : Fin 3
  lo : Nat
  deriving DecidableEq, Repr

/-- The fields of a 3-word disk order: Format (R84, `sector` is its record-count) and Read and Write
(R85, R86, `sector` is the record). -/
structure TransferLayout where
  recsize : FieldPos
  track : FieldPos
  head : FieldPos
  sector : FieldPos
  deriving DecidableEq, Repr

/-- The fields of Seek (R87). -/
structure SeekLayout where
  track : FieldPos
  restore : FieldPos
  clear : FieldPos
  deriving DecidableEq, Repr

/-- `FIELD_LAYOUT` (R8): the position of every operand field. Read and Write share one layout ("same
operand layout as Read", R86). -/
structure FieldLayout where
  format : TransferLayout
  transfer : TransferLayout
  seek : SeekLayout
  unitfield : FieldPos
  statusTarget : FieldPos
  oarTarget : FieldPos
  dmaChannel : FieldPos
  dmaNch : FieldPos
  vector : FieldPos
  jumpTarget : FieldPos
  deriving DecidableEq, Repr

/-- The default `FIELD_LAYOUT` (R83 to R91; spec 92 D3). PRESUMED, unsafe: log entry 17. -/
def FieldLayout.standard : FieldLayout where
  format := { recsize := ⟨0, 0⟩, track := ⟨1, 0⟩, head := ⟨2, 0⟩, sector := ⟨2, 8⟩ }
  transfer := { recsize := ⟨0, 0⟩, track := ⟨1, 0⟩, head := ⟨2, 0⟩, sector := ⟨2, 8⟩ }
  seek := { track := ⟨1, 0⟩, restore := ⟨1, 15⟩, clear := ⟨1, 14⟩ }
  unitfield := ⟨1, 0⟩
  statusTarget := ⟨1, 0⟩
  oarTarget := ⟨1, 0⟩
  dmaChannel := ⟨1, 0⟩
  dmaNch := ⟨0, 0⟩
  vector := ⟨1, 0⟩
  jumpTarget := ⟨1, 0⟩

/-- The encoding parameters: `ORDER_CODE` and `FIELD_LAYOUT`. -/
structure Encoding where
  codes : OrderCode
  layout : FieldLayout
  deriving DecidableEq, Repr

/-- The default encoding, the one of spec/opcode_table.json and of R99. -/
def Encoding.standard : Encoding where
  codes := .standard
  layout := .standard

/-- `STOREOAR_VALUE` (R174): the address StoreOAR writes. -/
inductive StoreOarValue where
  | self | next
  deriving DecidableEq, Repr

/-- `ZERO_COUNT_POLICY` (R59): a count register whose high 12 bits are 0. -/
inductive ZeroCountPolicy where
  | fault | zero | full
  deriving DecidableEq, Repr

/-- `UNIT_FIELD_POLICY` (R96): a unit field that is not one-hot. -/
inductive UnitFieldPolicy where
  | fault | literal
  deriving DecidableEq, Repr

/-- The four operation classes of an I/O instruction (R101). There is no other (R108). -/
inductive IoClass where
  | control | statusTest | input | output
  deriving DecidableEq, Repr

/-- The device handler variants of the dispatch contract (R217) other than the disk, whose handlers
are the controller instances themselves (R109). -/
inductive Handler where
  | console | tape | controlPanel | genericNull
  deriving DecidableEq, Repr

/-- The parameters of R8, and of the dispatch contract: the registry of R100 for the devices other than
the disk controllers, and those devices' instruction tables (R220). `DISK_DEV` is each controller
instance's own (R109) and is held with the instance.
DESIGN CHOICE, safe: log entry 5. -/
structure Params where
  /-- `ORDER_CODE` and `FIELD_LAYOUT`. -/
  encoding : Encoding
  /-- `MEM_WORDS`, 1 to 65536. -/
  memWords : Nat
  /-- `NOT_READY_MASK`. -/
  notReadyMask : Word
  /-- `NR_CLEAR_ON_SELECT`. -/
  nrClearOnSelect : Bool
  /-- `STATUS_RESET`. -/
  statusReset : Word
  /-- `STOREOAR_VALUE`. -/
  storeOarValue : StoreOarValue
  /-- `ZERO_COUNT_POLICY`. -/
  zeroCountPolicy : ZeroCountPolicy
  /-- `UNIT_FIELD_POLICY`. -/
  unitFieldPolicy : UnitFieldPolicy
  /-- `LOAD_OAR_FN`. -/
  loadOarFn : Nat
  /-- `SKIP_MODE_MASK`. -/
  skipModeMask : Word
  /-- `SKIP_CC_MASK`. -/
  skipCcMask : Word
  /-- The handlers of the other device addresses (R100, R217): address and handler. -/
  registry : List (Nat × Handler)
  /-- The instruction tables of the other devices (R220): the functions each recognizes. -/
  functions : List (Handler × IoClass × Nat)
  deriving DecidableEq, Repr

/-- The OPEN parameter `LOAD_OAR_FN` (R8, spec 92 D26): no value is stated, so none can be proved.
DESIGN CHOICE, safe: log entry 6, and so for the next five constants. -/
opaque loadOarFn : Nat

/-- The OPEN parameter `DISK_DEV` (R8, spec 92 D29): the address of the instance there is at reset. -/
opaque diskDev : Nat

/-- The OPEN parameter `SKIP_MODE_MASK` (R8, spec 92 D28). -/
opaque skipModeMask : Word

/-- The OPEN parameter `SKIP_CC_MASK` (R8, spec 92 D28). -/
opaque skipCcMask : Word

/-- Which other devices the machine has is configuration (R100) and not stated. -/
opaque registry : List (Nat × Handler)

/-- The instruction tables of the other devices are not in the source (R218, R220). -/
opaque functions : List (Handler × IoClass × Nat)

/-! What the spec leaves open of the other devices' answers (R101, R218 to R220). Each is an opaque
constant, so every proof holds for every choice. DESIGN CHOICE, safe: log entry 27. -/

/-- Whether the success of a class 0 function is signalled by the success signal (R101). -/
opaque controlSignals : Handler → Nat → Bool

/-- What a class 0 function of the console, a reset or mode set, does to the pending input (R101). -/
opaque controlInput : Nat → List Byte → List Byte

/-- The 7-bit character that class 3 of the console takes from the accumulator (R218). -/
opaque outputChar : Word → BitVec 7

/-- The accumulator value that class 2 of the console makes of a character (R101, R218). -/
opaque inputWord : Byte → Word

/-- Whether a class 2 function ORs its value into the accumulator or clears it first (R101). -/
opaque orsInto : Handler → Nat → Bool

/-- The retry pattern of the blocking-I/O detection, on the two words that follow (R219), `none` for a
word outside memory. -/
opaque retryPattern : Option Word → Option Word → Bool

/-- What a non-blocking console read with no pending input does (R218): the value it completes with,
or none where it does not complete. A fresh one for each such read. -/
opaque emptyRead : Nat → Option Word

/-- The accumulator after a non-blocking console read that does not complete (R101, R218), from the one
before it. A fresh one for each such read. -/
opaque emptyReadAcc : Nat → Word → Word

/-- The accumulator after a failed class 2 function of the tape (R220), from the one before it. -/
opaque tapeInput : Nat → Word → Word

/-- What a class 0 function of the control panel, a reset or mode set, does to the panel's register
(R101, R220). -/
opaque controlPanelWord : Nat → Word → Word

/-- The fixed readiness the control panel answers a class 1 function with (R220). -/
opaque panelReady : Nat → Bool

/-- The fixed value the control panel answers a class 2 function with (R220). -/
opaque panelValue : Nat → Word

/-- `Draw_COND()` (R124): the free value that the `n`-th conditional order draws, "under no law". It
has no body, so every proof holds for both outcomes of every draw. DESIGN CHOICE, safe: log entry
7. -/
opaque drawCond : Nat → Bool

/-- The parameters at reset: the defaults of R8, and the opaque constants for the OPEN ones. -/
def Params.standard : Params where
  encoding := .standard
  memWords := 65536
  notReadyMask := 0x8001
  nrClearOnSelect := true
  statusReset := 0x0000
  storeOarValue := .self
  zeroCountPolicy := .fault
  unitFieldPolicy := .fault
  loadOarFn := Config.loadOarFn
  skipModeMask := Config.skipModeMask
  skipCcMask := Config.skipCcMask
  registry := Config.registry
  functions := Config.functions

/-- `HEADS` (R7). -/
def heads : Nat := 40

/-- `SECTORS` (R7). -/
def sectors : Nat := 9

/-- `SECTOR_BYTES` (R7). -/
def sectorBytes : Nat := 2080

end Sys2Proof.Config
end

