-- ==== Sys2Proof/WellFormed.lean ====
section
/-! DEFINITION. When an order can be written under an encoding, and when a set of parameters is one
the spec allows. The operand widths of an order are types, so an order by itself needs no check; what
can be ill-formed is the encoding: two kinds with one code (R8, `ORDER_CODE` is injective), a field
that leaves its word or its slot or lies on the code or the flag (R80), two fields of one order that
overlap. -/

namespace Sys2Proof.Config

/-- `ORDER_CODE` is injective (R8): no two kinds share a code. -/
abbrev OrderCode.WellFormed (m : OrderCode) : Prop := (OrderKind.all.map m.codeOf).Nodup

/-- A field of `width` bits at `p` lies inside a slot of `size` words; in `w0` it lies in bits [10:0],
below the flag and the code (R80). -/
abbrev FieldPos.Fits (p : FieldPos) (width size : Nat) : Prop :=
  p.word.val < size ∧ p.lo + width ≤ if p.word = 0 then 11 else 16

/-- Two fields share no bit. -/
abbrev FieldPos.Apart (p : FieldPos) (wp : Nat) (q : FieldPos) (wq : Nat) : Prop :=
  p.word ≠ q.word ∨ p.lo + wp ≤ q.lo ∨ q.lo + wq ≤ p.lo

/-- The four fields of a 3-word order fit and share no bit; the widths are those of R84 and R85. -/
def TransferLayout.wf (l : TransferLayout) : Bool :=
  decide (l.recsize.Fits 4 3 ∧ l.track.Fits 10 3 ∧ l.head.Fits 6 3 ∧ l.sector.Fits 8 3) &&
  decide (l.recsize.Apart 4 l.track 10 ∧ l.recsize.Apart 4 l.head 6 ∧
    l.recsize.Apart 4 l.sector 8) &&
  decide (l.track.Apart 10 l.head 6 ∧ l.track.Apart 10 l.sector 8 ∧ l.head.Apart 6 l.sector 8)

/-- The three fields of Seek fit and share no bit (R87). -/
def SeekLayout.wf (l : SeekLayout) : Bool :=
  decide (l.track.Fits 10 2 ∧ l.restore.Fits 1 2 ∧ l.clear.Fits 1 2) &&
  decide (l.track.Apart 10 l.restore 1 ∧ l.track.Apart 10 l.clear 1 ∧ l.restore.Apart 1 l.clear 1)

/-- The layout of the fields of one order kind is well formed. -/
def FieldLayout.wfFor (l : FieldLayout) : OrderKind → Bool
  | .halt => true
  | .format => l.format.wf
  | .seek => l.seek.wf
  | .selUnit => decide (l.unitfield.Fits 4 2)
  | .read => l.transfer.wf
  | .write => l.transfer.wf
  | .stall => true
  | .stStatus => decide (l.statusTarget.Fits 16 2)
  | .stOar => decide (l.oarTarget.Fits 16 2)
  | .selDma =>
    decide (l.dmaChannel.Fits 16 2 ∧ l.dmaNch.Fits 4 2 ∧ l.dmaChannel.Apart 16 l.dmaNch 4)
  | .interrupt => decide (l.vector.Fits 16 2)
  | .jump => decide (l.jumpTarget.Fits 16 2)

/-- The whole layout is well formed: every kind's is. -/
def FieldLayout.wf (l : FieldLayout) : Bool := OrderKind.all.all l.wfFor

/-- An encoding the spec allows. -/
abbrev Encoding.WellFormed (e : Encoding) : Prop := e.codes.WellFormed ∧ e.layout.wf = true

/-- Parameters the spec allows (R8): `MEM_WORDS` is 1 to 65536 and the encoding is well formed. -/
abbrev Params.WellFormed (p : Params) : Prop :=
  (1 ≤ p.memWords ∧ p.memWords ≤ 65536) ∧ p.encoding.WellFormed

end Sys2Proof.Config

namespace Sys2Proof

/-- An order can be written under an encoding: its kind has a code of its own and its fields fit. -/
abbrev Instr.WellFormed (e : Config.Encoding) (i : Instr) : Prop :=
  e.codes.WellFormed ∧ e.layout.wfFor i.kind = true

end Sys2Proof
end

