-- ==== Sys2Proof/Decode.lean ====
section
/-! DEFINITION. The decoder and, after it, the encoder (R80 to R99), both over the encoding parameters
`ORDER_CODE` and `FIELD_LAYOUT` (R8). The decoder is total on any list of words and rejects by name.
Bits that no field names are ignored on decode and written as 0 (R92). -/

namespace Sys2Proof

open Sys2Proof.Config

/-- The words of a slot (R80). For a 2-word order `w2` is no part of it and holds 0. -/
structure Slot where
  w0 : Word
  w1 : Word
  w2 : Word
  deriving DecidableEq, Repr

/-- One word of a slot. -/
def Slot.word (s : Slot) (k : Fin 3) : Word :=
  match k with
  | 0 => s.w0
  | 1 => s.w1
  | 2 => s.w2

/-- A slot with one of its words replaced. -/
def Slot.setWord (s : Slot) (k : Fin 3) (v : Word) : Slot :=
  match k with
  | 0 => { s with w0 := v }
  | 1 => { s with w1 := v }
  | 2 => { s with w2 := v }

/-- The `n`-bit operand field at `p` (R95: an unsigned field of one slot word). -/
def Slot.field (s : Slot) (p : FieldPos) (n : Nat) : BitVec n :=
  (s.word p.word).extractLsb' p.lo n

/-- The order-kind code of a first word, `w0[15:12]` (R80). -/
def codeField (w0 : Word) : BitVec 4 := w0.extractLsb' 12 4

/-- The conditional-execute flag of a first word, `w0[11]`, mask `0x0800` (R81). -/
def condFlag (w0 : Word) : Bool := w0.getLsbD 11

/-- A one-bit field as a truth value. -/
def bitSet (b : BitVec 1) : Bool := b.getLsbD 0

/-- The kind with a given code, if there is one: the inverse of `ORDER_CODE` (R93, R120). -/
def kindOf (m : OrderCode) (code : BitVec 4) : Option OrderKind :=
  OrderKind.all.find? (fun k => m.codeOf k == code)

/-- The order of a kind whose slot words are given (R83 to R91). -/
def decodeSlot (l : FieldLayout) (k : OrderKind) (s : Slot) : Instr :=
  let c := condFlag s.w0
  match k with
  | .halt => .halt c
  | .format =>
    .format c (s.field l.format.recsize 4) (s.field l.format.track 10)
      (s.field l.format.head 6) (s.field l.format.sector 8)
  | .seek =>
    .seek c (s.field l.seek.track 10) (bitSet (s.field l.seek.restore 1))
      (bitSet (s.field l.seek.clear 1))
  | .selUnit => .selUnit c (s.field l.unitfield 4)
  | .read =>
    .read c (s.field l.transfer.recsize 4) (s.field l.transfer.track 10)
      (s.field l.transfer.head 6) (s.field l.transfer.sector 8)
  | .write =>
    .write c (s.field l.transfer.recsize 4) (s.field l.transfer.track 10)
      (s.field l.transfer.head 6) (s.field l.transfer.sector 8)
  | .stall => .stall c
  | .stStatus => .stStatus c (s.field l.statusTarget 16)
  | .stOar => .stOar c (s.field l.oarTarget 16)
  | .selDma => .selDma c (s.field l.dmaChannel 16) (s.field l.dmaNch 4)
  | .interrupt => .interrupt c (s.field l.vector 16)
  | .jump => .jump c (s.field l.jumpTarget 16)

/-- What decoding a list of words can answer. -/
inductive DecodeResult where
  /-- An order, and the words after its slot. -/
  | order (i : Instr) (rest : List Word)
  /-- The first word's code is that of no kind (R93). -/
  | unrecognized (code : BitVec 4)
  /-- The list ends inside the slot. -/
  | truncated
  deriving DecidableEq, Repr

/-- Decode the order that a list of words begins with (R80, R93, R94). -/
def decode (e : Encoding) : List Word → DecodeResult
  | [] => .truncated
  | w0 :: ws =>
    match kindOf e.codes (codeField w0) with
    | none => .unrecognized (codeField w0)
    | some k =>
      match k.size, ws with
      | 2, w1 :: rest => .order (decodeSlot e.layout k ⟨w0, w1, 0⟩) rest
      | 3, w1 :: w2 :: rest => .order (decodeSlot e.layout k ⟨w0, w1, w2⟩) rest
      | _, _ => .truncated

/-- The order of a decoding, if there is one. -/
def DecodeResult.order? : DecodeResult → Option Instr
  | .order i _ => some i
  | .unrecognized _ => none
  | .truncated => none

/-- The words of an instruction whose bits are `w`, the first `nbits` of them given and every later
bit 0: bit 0 is the least significant bit of the first word, and a later word's bits count on from
it. Three words, the longest slot. -/
def tableWords (nbits w : Nat) : List Word :=
  let v := w % 2 ^ nbits
  [BitVec.ofNat 16 v, BitVec.ofNat 16 (v / 2 ^ 16), BitVec.ofNat 16 (v / 2 ^ 32)]

/-- The order the decoder reads, under the default encoding, from an instruction given as a number
with the bit numbering of spec/opcode_table.json. -/
def decodeTableWord (nbits w : Nat) : Option Instr :=
  (decode .standard (tableWords nbits w)).order?

/-! ### The encoder (R97) -/

/-- A slot with the value `v` written into the field at `p`. -/
def Slot.put (s : Slot) {n : Nat} (p : FieldPos) (v : BitVec n) : Slot :=
  s.setWord p.word (s.word p.word ||| (v.setWidth 16 <<< p.lo))

/-- The slot with a code, a flag and every other bit 0: `(k << 12) | (c << 11)` (R97). -/
def baseSlot (code : BitVec 4) (c : Bool) : Slot :=
  ⟨(code.setWidth 16 <<< 12) ||| (if c then 0x0800 else 0), 0, 0⟩

/-- A 3-word disk order's four fields put into a slot. -/
def Slot.putTransfer (s : Slot) (l : TransferLayout) (rs : BitVec 4) (t : BitVec 10)
    (h : BitVec 6) (r : BitVec 8) : Slot :=
  (((s.put l.recsize rs).put l.track t).put l.head h).put l.sector r

/-- The operand fields of an order put into a slot (R83 to R91, R97). -/
def putFields (l : FieldLayout) (i : Instr) (s : Slot) : Slot :=
  match i with
  | .halt _ => s
  | .format _ rs t h n => s.putTransfer l.format rs t h n
  | .seek _ t r k =>
    ((s.put l.seek.track t).put l.seek.restore (BitVec.ofBool r)).put l.seek.clear
      (BitVec.ofBool k)
  | .selUnit _ f => s.put l.unitfield f
  | .read _ rs t h r => s.putTransfer l.transfer rs t h r
  | .write _ rs t h r => s.putTransfer l.transfer rs t h r
  | .stall _ => s
  | .stStatus _ a => s.put l.statusTarget a
  | .stOar _ a => s.put l.oarTarget a
  | .selDma _ ch n => (s.put l.dmaChannel ch).put l.dmaNch n
  | .interrupt _ v => s.put l.vector v
  | .jump _ a => s.put l.jumpTarget a

/-- The slot of an order. -/
def encodeSlot (e : Encoding) (i : Instr) : Slot :=
  putFields e.layout i (baseSlot (e.codes.codeOf i.kind) i.cond)

/-- The first `n` words of a slot. -/
def Slot.words (s : Slot) (n : Nat) : List Word := [s.w0, s.w1, s.w2].take n

/-- The words of an order (R97). -/
def encode (e : Encoding) (i : Instr) : List Word := (encodeSlot e i).words i.size

end Sys2Proof
end

