-- ==== Sys2Proof/Machine/State.lean ====
section
/-! DEFINITION. The state of the machine as plain data (spec 10_state.md): the controller state of each
controller instance (R20 to R29, R37, R109), the shared state the block reads and writes (R30 to R35), the
backing store (R60), the parameters (R8), and what the model itself needs: the draw counter (R124), the
queue of pending inputs of the CPU and the host (R14, R238), and whether the instance exists (R230,
R233). Also the reasons a step can stop, the record of backing-store events, and the state at reset
(R41, R230). -/

namespace Sys2Proof.Machine

open Sys2Proof.Config

/-- The fatal conditions F1 to F8, the closed set of R200. A fatal condition is TAKEN by a step whose
next state is `Faulted` with the reason (R201); every later step answers `Host.Outcome.fault` with it. -/
inductive Fault where
  /-- F1, raised by the fetch of an order whose code is that of no kind (R93, R122): the code and the
  order's address. Safe: the source makes it fatal. -/
  | unrecognizedOrder (code : BitVec 4) (a : Word)
  /-- F2, raised by an executed Interrupt order (R175): the vector and the order's address. Safe. -/
  | interruptOrder (vector a : Word)
  /-- F3, raised by a dispatch call that no handler recognizes, or that is for a disk controller and is
  not load OAR (R6, R101, R106, R108). Safe: toward unprovable. Whose refusal it is: log entry 31. -/
  | unsupportedFunction (cls : IoClass) (fn dev : Nat)
  /-- F4, raised by a Read past the end of the backing file (R63): unit, byte offset, byte count.
  Safe: the source makes it fatal. -/
  | shortRead (u : UnitIndex) (off nbytes : Nat)
  /-- F5, raised by fetch, StoreStatus, StoreOAR and Read at a word address at or above `MEM_WORDS`
  (R51, R52). Safe: the spec's refusal (R202). -/
  | memoryOutOfRange (addr : Word)
  /-- F6, raised by a Read with a file open and no DMA channel selected (R143). Safe: the spec's
  refusal (R202). -/
  | dmaNotSelected (a : Word)
  /-- F7, raised by a Read whose count register has bits [15:4] = 0 under `ZERO_COUNT_POLICY = fault`
  (R59). Safe: the spec's refusal (R202). -/
  | dmaZeroCount (c : Word)
  /-- F8, raised by a SelectUnit whose field is not one-hot under `UNIT_FIELD_POLICY = fault` (R96).
  Safe: the spec's refusal (R202). -/
  | badUnitField (v : BitVec 4)
  deriving DecidableEq, Repr

/-- The reasons the model has no meaning for a step. No order of a channel program is ever refused. -/
inductive Refusal where
  /-- Raised by an arm of `exec` for an instruction with no meaning yet; no arm does. Safe. -/
  | notModelled (mnemonic : String)
  /-- Raised by an input that says the CPU wrote a memory word that does not exist (R50). Safe. -/
  | cpuOutsideMemory (addr : Word)
  deriving DecidableEq, Repr

/-- `ctl.run` (R29). -/
inductive RunState where
  | idle
  | running
  | faulted (reason : Fault)
  deriving DecidableEq, Repr

/-- One backing-store port operation of `ctl.events` (R37): `Open(u, ok)`, `Close(u)`,
`Read(u, offset, nbytes)`. -/
inductive Event where
  | opened (u : UnitIndex) (ok : Bool)
  | closed (u : UnitIndex)
  | readBytes (u : UnitIndex) (off nbytes : Nat)
  deriving DecidableEq, Repr

/-- What the CPU and the host can do between channel programs (R14, R30, R35, R230 to R238).
DESIGN CHOICE, safe: log entry 9. -/
inductive Input where
  /-- The CPU's I/O instruction: `Dispatch(class, fn, dev)` (R100). -/
  | call (cls : IoClass) (fn dev : Nat)
  /-- The CPU stores a word of main memory (R35, R235). -/
  | cpuMem (addr value : Word)
  /-- The CPU or another agent writes an entry of the DMA register bank (R30, R235). -/
  | cpuDmx (i : Fin 64) (value : Word)
  /-- The CPU loads its accumulator (R32, R235). -/
  | cpuAcc (value : Word)
  /-- The CPU writes its condition/mode register (R33). -/
  | cpuKeys (value : Word)
  /-- The CPU's program counter moves (R34). -/
  | cpuPc (value : Word)
  /-- The host provides or removes the backing file of a (device address, unit) (R60, R64, R237). -/
  | hostFile (dev : Nat) (u : Fin 4) (file : Option (List Byte))
  /-- A character is typed at the console (R218). DESIGN CHOICE width, safe: log entry 28. -/
  | consoleKey (b : Byte)
  /-- A controller instance is constructed at a device address: the block's reset (R109, R230). -/
  | construct (dev : Nat)
  /-- The controller instance at a device address is destroyed (R233). -/
  | teardown (dev : Nat)
  deriving DecidableEq, Repr

/-- Main memory (R35, R50): the host's byte cells, sorted by key, none holding 0; an unlisted cell
reads 0. Word `a` is the cells `2a` (bits [15:8]) and `2a + 1` (bits [7:0]); no operation of the
machine reads or writes less than a word (R53). DESIGN CHOICE: log entries 1 (safe), 2 (unsafe). -/
abbrev Memory := List Host.Cell

/-- One backing file: one "per (device address, unit)" (R64). -/
structure BackingFile where
  dev : Nat
  unit : Fin 4
  bytes : List Byte
  deriving DecidableEq, Repr

/-- The backing store `STORE` (R60): the files that are present, in the order of device address and
unit; a unit with no entry is absent. -/
abbrev Store := List BackingFile

/-- The controller state `ctl` of an instance that the machine does not have in hand (R20, R109), the
fields as in `State`. -/
structure Controller where
  dev : Nat
  oar : Word
  status : Word
  selUnit : Option UnitIndex
  openUnit : Option UnitIndex
  dmaChan : Option Word
  dmaNch : BitVec 4
  run : RunState
  events : List Event
  deriving DecidableEq, Repr

/-- The machine. The controller fields are those of the instance in hand: the one addressed last, the
only one that can be running (R109). DESIGN CHOICE, safe: log entry 24. -/
structure State where
  /-- `DISK_DEV` of the instance in hand (R8, R109). -/
  dev : Nat
  /-- `ctl.oar` (R21). -/
  oar : Word
  /-- `ctl.status` (R22). -/
  status : Word
  /-- `ctl.selUnit` (R24). -/
  selUnit : Option UnitIndex
  /-- `ctl.openUnit` (R25). -/
  openUnit : Option UnitIndex
  /-- `ctl.dmaChan` (R27). -/
  dmaChan : Option Word
  /-- `ctl.dmaNch` (R28). -/
  dmaNch : BitVec 4
  /-- `ctl.run` (R29). -/
  run : RunState
  /-- `ctl.events` (R37). -/
  events : List Event
  /-- The other controller instances (R109). -/
  others : List Controller
  /-- The DMA register bank `dmx` (R30). -/
  dmx : Vector Word 64
  /-- The accumulator `A` (R32). -/
  acc : Word
  /-- The condition/mode register `keys` (R33). DEDUCED width: log entry 20. -/
  keys : Word
  /-- The CPU's program counter `pc` (R34). DEDUCED width: log entry 20. -/
  pc : Word
  /-- Main memory `mem` (R35). -/
  mem : Memory
  /-- The backing store `STORE` (R60). -/
  store : Store
  /-- The console's pending input, oldest first (R218). DESIGN CHOICE width, safe: log entry 28. -/
  consoleIn : List Byte
  /-- The characters the console wrote, oldest first (R218). -/
  consoleOut : List (BitVec 7)
  /-- The word last written to the control panel (R220). -/
  panel : Word
  /-- The parameters of R8: configuration, which no step changes (R43). -/
  params : Params
  /-- The model's own: how many condition draws have been taken (R124). Log entry 7. -/
  draws : Nat
  /-- The model's own: what the CPU and the host do next, oldest first (R14, R238). Log entry 9. -/
  inputs : List Input
  /-- The model's own: the instance in hand exists (R230, R233). Log entry 11. -/
  live : Bool
  deriving DecidableEq, Repr

/-- Right after the construction of the controller (R41, R230). `oar` and `dmaNch` are unspecified
there and 0 here; the shared state and the backing store are launch inputs (R41) and 0, empty and
absent here; there is one instance, and no input was typed. DESIGN CHOICE, unsafe: log entries 2, 3, 4,
23 and 24. -/
def State.reset : State where
  dev := Config.diskDev
  oar := 0
  status := Params.standard.statusReset
  selUnit := none
  openUnit := none
  dmaChan := none
  dmaNch := 0
  run := .idle
  events := []
  others := []
  dmx := Vector.replicate 64 0
  acc := 0
  keys := 0
  pc := 0
  mem := []
  store := []
  consoleIn := []
  consoleOut := []
  panel := 0
  params := .standard
  draws := 0
  inputs := []
  live := true

end Sys2Proof.Machine
end

