-- ==== Sys2Proof/Machine/Flags.lean ====
section
/-! DEFINITION. The block's one status condition, not-ready (R22, R23, R140), and the CPU's success
signal with its condition-code bit (R104). The block has no other flag (R39). -/

namespace Sys2Proof.Machine

/-- `SetNotReady()` (R140). -/
def setNotReady (s : State) : State :=
  { s with status := s.status ||| s.params.notReadyMask }

/-- `ClearNotReady()` (R140). -/
def clearNotReady (s : State) : State :=
  { s with status := s.status &&& ~~~s.params.notReadyMask }

/-- The status after a unit's file was opened: not-ready is cleared when `NR_CLEAR_ON_SELECT` (R148). -/
def statusOnOpen (s : State) : State :=
  if s.params.nrClearOnSelect then clearNotReady s else s

/-- The controller is not ready: `ctl.status[15] = 1` (R23). -/
def notReady (s : State) : Bool := s.status.getLsbD 15

/-- `SuccessSkip()` (R104): the condition-code bit is set in the one mode, `pc` advances by one word in
the other. -/
def successSkip (s : State) : State :=
  if s.keys &&& s.params.skipModeMask ≠ 0 then
    { s with keys := s.keys ||| s.params.skipCcMask }
  else
    { s with pc := s.pc + 1 }

end Sys2Proof.Machine
end

