-- ==== Sys2Proof/Machine/Operands.lean ====
section
/-! DEFINITION. What orders compute from their operand fields: the unit index (R96), the DMA
register-pair index (R56, R57), the DMA word count (R59), the CHS translation (R66), the value
StoreOAR writes (R174) and the name of a backing file (R65). -/

namespace Sys2Proof.Machine

open Sys2Proof.Config

/-- `UnitIndex` of a one-hot field (R96). -/
def oneHotIndex (v : BitVec 4) : Option UnitIndex :=
  if v = 0b0001 then some 0
  else if v = 0b0010 then some 1
  else if v = 0b0100 then some 2
  else if v = 0b1000 then some 3
  else none

/-- The source's algorithm on any field: `j = v >> 1; if j = 4 then j <- 3` (R96). -/
def literalIndex (v : BitVec 4) : UnitIndex :=
  let j := ((v >>> 1).setWidth 3).toFin
  if j = 4 then 3 else j

/-- `UnitIndex(v)` under a `UNIT_FIELD_POLICY` (R96). -/
def unitIndex (p : UnitFieldPolicy) (v : BitVec 4) : Except Fault UnitIndex :=
  match p with
  | .literal => .ok (literalIndex v)
  | .fault =>
    match oneHotIndex v with
    | some u => .ok u
    | none => .error (.badUnitField v)

/-- The register-pair index of a channel, `((ch & 0x1E) << 1) | (ch & 1)` (R56), the entry of `dmx`
that is the count register (R31). -/
def pairIndex (ch : Word) : Fin 64 :=
  ((((ch &&& 0x1E) <<< 1) ||| (ch &&& 1)).setWidth 6).toFin

/-- The entry of `dmx` that is the address register of pair `i`: `dmx[i + 2]` (R57). -/
def addrIndex (i : Fin 64) : Fin 64 := i + 2

/-- The high 12 bits of a count register, `c[15:4]` (R59). -/
def countField (c : Word) : BitVec 12 := c.extractLsb' 4 12

/-- `DmaWordCount(c)` under a `ZERO_COUNT_POLICY` (R59). -/
def dmaWordCount (p : ZeroCountPolicy) (c : Word) : Except Fault Nat :=
  if countField c ≠ 0 then .ok (4096 - (countField c).toNat)
  else
    match p with
    | .fault => .error (.dmaZeroCount c)
    | .zero => .ok 0
    | .full => .ok 4096

/-- The CHS translation (R66), in exact natural numbers. -/
def chsOffset (track : BitVec 10) (head : BitVec 6) (record : BitVec 8) : Nat :=
  (track.toNat * heads * sectors + head.toNat * sectors + record.toNat) * sectorBytes

/-- The address StoreOAR writes, for a StoreOAR order at `a` (R174). -/
def storeOarWord (v : StoreOarValue) (a : Word) : Word :=
  match v with
  | .self => a
  | .next => a + 2

/-- The file of unit `u` of the controller at device address `dev` (R65):
`dev<octal-device-address>u<unit-index>`. -/
def fileName (dev : Nat) (u : UnitIndex) : String :=
  "dev" ++ String.ofList (Nat.toDigits 8 dev) ++ "u" ++ String.ofList (Nat.toDigits 10 u.val)

end Sys2Proof.Machine
end

