-- ==== Sys2Proof/Machine/Ops.lean ====
section
/-! DEFINITION. The named operations every order is built from: main memory (R51 to R53), the DMA
register bank (R30), the backing-store port (R60 to R63), raising a fatal condition (R201), the
conditional-execute rule (R124, R125), the advance (R126), order fetch (R120 to R122), the Read
transfer (R58) and the change of the open file (R148). -/

namespace Sys2Proof.Machine

open Sys2Proof.Config

/-! ### Main memory -/

/-- The byte in cell `k`; an unlisted cell reads 0. DESIGN CHOICE, unsafe: log entry 2. -/
def Memory.readByte : Memory → Nat → Byte
  | [], _ => 0
  | c :: m, k => if c.1 = k then c.2 else Memory.readByte m k

/-- The cells with one more at its place in the order of keys. -/
def Memory.insertCell : Memory → Nat → Byte → Memory
  | [], k, b => [(k, b)]
  | c :: m, k, b => if k < c.1 then (k, b) :: c :: m else c :: Memory.insertCell m k b

/-- The cells without those of key `k`. -/
def Memory.erase (m : Memory) (k : Nat) : Memory := m.filter (fun c => c.1 != k)

/-- Write cell `k`; writing what an unlisted cell reads removes the cell. -/
def Memory.writeByte (m : Memory) (k : Nat) (b : Byte) : Memory :=
  if b = 0 then m.erase k else (m.erase k).insertCell k b

/-- The canonical form: keys strictly rising, no cell holding 0, no key beyond the last word of the
16-bit address space (R50). -/
abbrev Memory.wf (m : Memory) : Prop :=
  m.Pairwise (fun c d => c.1 < d.1) ∧ ∀ c ∈ m, c.2 ≠ 0 ∧ c.1 < 131072

/-- The word at an address, `mem[addr]` (R51). -/
def Memory.readWord (m : Memory) (a : Word) : Word :=
  m.readByte (2 * a.toNat) ++ m.readByte (2 * a.toNat + 1)

/-- `mem[addr] <- v`, the whole word (R52). -/
def Memory.writeWord (m : Memory) (a v : Word) : Memory :=
  (m.writeByte (2 * a.toNat) (v.extractLsb' 8 8)).writeByte (2 * a.toNat + 1)
    (v.extractLsb' 0 8)

/-- Write words at consecutive addresses, the address wrapping modulo 2^16 (R58, R69). -/
def Memory.writeWords (m : Memory) (a : Word) : List Word → Memory
  | [] => m
  | v :: vs => Memory.writeWords (m.writeWord a v) (a + 1) vs

/-! ### What an order's own part can end in, and raising a fatal condition -/

/-- How an order's own checks and effects end: with a state, or by a fatal condition raised in a
state (a ShortRead has appended its event before it raises, R203). -/
inductive Effect where
  | done (s : State)
  | raised (r : Fault) (s : State)
  deriving DecidableEq, Repr

/-- Go on with the state of an effect; nothing follows a raise (R12). -/
def Effect.bind (e : Effect) (f : State → Effect) : Effect :=
  match e with
  | .done s => f s
  | .raised r s => .raised r s

/-- `raise Fatal(reason)` (R201): the controller is `Faulted` with the reason and nothing else
changes. This is the one entry of an exception; there is no return from it (R209). DESIGN CHOICE,
safe: log entry 8. -/
def raise (r : Fault) (s : State) : State := { s with run := .faulted r }

/-- The state an order leaves: that of its effect, or the faulted one. -/
def Effect.settle (e : Effect) : State :=
  match e with
  | .done s => s
  | .raised r s => raise r s

/-! ### Memory and register accesses of the block -/

/-- `MemRead(addr)` (R51). -/
def memRead (s : State) (a : Word) : Except Fault Word :=
  if a.toNat < s.params.memWords then .ok (s.mem.readWord a) else .error (.memoryOutOfRange a)

/-- `MemWrite(addr, v)` (R52). -/
def memWrite (a v : Word) (s : State) : Effect :=
  if a.toNat < s.params.memWords then .done { s with mem := s.mem.writeWord a v }
  else .raised (.memoryOutOfRange a) s

/-- `dmx[i]` (R30). -/
def dmxRead (s : State) (i : Fin 64) : Word := s.dmx.get i

/-- `dmx[i] <- v` (R30). -/
def dmxWrite (i : Fin 64) (v : Word) (s : State) : State := { s with dmx := s.dmx.set i v }

/-- Append a backing-store event (R37). -/
def appendEvent (e : Event) (s : State) : State := { s with events := s.events ++ [e] }

/-! ### The order cycle -/

/-- The advance of the OAR past an order of a kind, `a + SIZE(kind)` modulo 2^16 (R126). -/
def advance (k : OrderKind) (s : State) : State :=
  { s with oar := s.oar + BitVec.ofNat 16 k.size }

/-- Whether an order with flag `c` executes: the flag is clear or the draw is true (R124). -/
def condHolds (c : Bool) (s : State) : Bool := !c || Config.drawCond s.draws

/-- The state after the condition was evaluated: a conditional order takes one draw (R124). -/
def afterCond (c : Bool) (s : State) : State := if c then { s with draws := s.draws + 1 } else s

/-- The conditional-execute rule (R124, R125): the order's own part if the condition holds, else only
the advance by the kind's natural size. -/
def conditional (c : Bool) (k : OrderKind) (s : State) (body : State → Effect) :
    Host.Outcome State Fault Refusal :=
  .next (if condHolds c s then (body (afterCond c s)).settle else advance k (afterCond c s))

/-- Order fetch and decode (R120 to R122): `w0`, then the code, then `w1` and for a 3-word order `w2`,
each read from memory at this step, slot addresses wrapping modulo 2^16. -/
def fetch (s : State) : Except Fault Instr :=
  match memRead s s.oar with
  | .error r => .error r
  | .ok w0 =>
    match kindOf s.params.encoding.codes (codeField w0) with
    | none => .error (.unrecognizedOrder (codeField w0) s.oar)
    | some k =>
      match memRead s (s.oar + 1) with
      | .error r => .error r
      | .ok w1 =>
        if k.size = 3 then
          match memRead s (s.oar + 2) with
          | .error r => .error r
          | .ok w2 => .ok (decodeSlot s.params.encoding.layout k ⟨w0, w1, w2⟩)
        else .ok (decodeSlot s.params.encoding.layout k ⟨w0, w1, 0⟩)

/-! ### The backing store -/

/-- The place of a file in the order of the store. -/
def fileKey (f : BackingFile) : Nat := 4 * f.dev + f.unit.val

/-- The file of unit number `u` at device address `dev`, if it is present (R60, R64). -/
def fileAt (st : Store) (dev u : Nat) : Option (List Byte) :=
  (st.find? (fun f => f.dev == dev && f.unit.val == u)).map BackingFile.bytes

/-- The store with one more file at its place. -/
def insertFile (f : BackingFile) : Store → Store
  | [] => [f]
  | g :: st => if fileKey f < fileKey g then f :: g :: st else g :: insertFile f st

/-- The store after the host provided or removed the file of a (device address, unit) (R60, R237). -/
def setFile (dev : Nat) (u : Fin 4) (file : Option (List Byte)) (st : Store) : Store :=
  let rest := st.filter (fun f => !(f.dev == dev && f.unit.val == u.val))
  match file with
  | some bytes => insertFile ⟨dev, u, bytes⟩ rest
  | none => rest

/-- `STORE(u)` of the instance in hand (R60); units 5 to 7 are absent (R150). -/
def fileOf (s : State) (u : UnitIndex) : Option (List Byte) := fileAt s.store s.dev u.val

/-- Whether an open of unit `u` succeeds: its file is present (R61). -/
def present (s : State) (u : UnitIndex) : Bool := (fileOf s u).isSome

/-- `StoreClose(u)` and no file open (R62, R148). -/
def storeClose (u : UnitIndex) (s : State) : State :=
  { appendEvent (.closed u) s with openUnit := none }

/-- Close the open file, if there is one (R148, R233). -/
def closeOpen (s : State) : State :=
  match s.openUnit with
  | some u => storeClose u s
  | none => s

/-- `StoreOpen(u)` and what SelectUnit does with its answer (R61, R148). -/
def storeOpen (u : UnitIndex) (s : State) : State :=
  if present s u then
    statusOnOpen { appendEvent (.opened u true) s with openUnit := some u }
  else
    setNotReady (appendEvent (.opened u false) s)

/-- The selected unit is `u`, whether or not its file will open (R24, R148). -/
def selectUnit (u : UnitIndex) (s : State) : State := { s with selUnit := some u }

/-- The open file changes to that of unit `u`, unless it is that already (R148). -/
def changeUnit (u : UnitIndex) (s : State) : State :=
  if s.openUnit = some u then s else storeOpen u (closeOpen s)

/-- The bytes of unit `u`'s file; an absent file has none. DESIGN CHOICE, unsafe where the host removed
the file of the open unit: log entry 13. -/
def fileBytes (s : State) (u : UnitIndex) : List Byte := (fileOf s u).getD []

/-- The words formed from bytes, the first byte of a pair in bits [15:8] (R54). -/
def wordsOfBytes : List Byte → List Word
  | b :: b' :: bs => (b ++ b' : BitVec (8 + 8)) :: wordsOfBytes bs
  | [_] => []
  | [] => []

/-- The first of `n` consecutive addresses from `a`, wrapping modulo 2^16, that is at or above
`MEM_WORDS` (R58). -/
def firstOutside (memWords : Nat) (a : Word) : Nat → Option Word
  | 0 => none
  | n + 1 => if a.toNat < memWords then firstOutside memWords (a + 1) n else some a

/-- `StoreRead(u, off, nbytes)` (R63): the event, then the bytes or a ShortRead. -/
def storeRead (u : UnitIndex) (off nbytes : Nat) (s : State)
    (go : List Byte → State → Effect) : Effect :=
  let s := appendEvent (.readBytes u off nbytes) s
  if off + nbytes ≤ (fileBytes s u).length then go (((fileBytes s u).drop off).take nbytes) s
  else .raised (.shortRead u off nbytes) s

/-- The writes of a Read transfer of `n` words to pair `i` (R58): the words at the address register,
the count register zeroed, the address register advanced. -/
def transferWrites (i : Fin 64) (n : Nat) (bytes : List Byte) (s : State) : State :=
  let a0 := dmxRead s (addrIndex i)
  let s := { s with mem := s.mem.writeWords a0 (wordsOfBytes bytes) }
  dmxWrite (addrIndex i) (a0 + BitVec.ofNat 16 n) (dmxWrite i 0 s)

/-- The Read transfer (R58): the count, then the buffer bounds, then the file length, all before any
write. -/
def dmaTransfer (i : Fin 64) (u : UnitIndex) (off : Nat) (s : State) : Effect :=
  match dmaWordCount s.params.zeroCountPolicy (dmxRead s i) with
  | .error r => .raised r s
  | .ok n =>
    match firstOutside s.params.memWords (dmxRead s (addrIndex i)) n with
    | some a => .raised (.memoryOutOfRange a) s
    | none => storeRead u off (2 * n) s (fun bytes s => .done (transferWrites i n bytes s))

end Sys2Proof.Machine
end

