-- ==== Sys2Proof/Machine/Devices.lean ====
section
/-! DEFINITION. The devices of the dispatch contract other than the disk (R217 to R221), as far as the
four classes (R101) and their interface rules describe them: the console, the tape, the control panel
and the generic-null handler. Their instruction tables are not in the source: which functions they
recognize is the parameter `functions`, and a function they do not recognize is fatal (R220). DEDUCED,
unsafe for a function that does more than its class and interface rule say: log entry 12. -/

namespace Sys2Proof.Machine

open Sys2Proof.Config

/-- The handler of a device address that is no disk controller's (R100, R108). -/
def handlerAt (s : State) (dev : Nat) : Option Handler :=
  (s.params.registry.find? (fun e => e.1 == dev)).map Prod.snd

/-- A device recognizes a function of a class (R101, R220). -/
def recognizes (s : State) (h : Handler) (cls : IoClass) (fn : Nat) : Bool :=
  s.params.functions.contains (h, cls, fn)

/-- The success signal, where it is given. -/
def signalIf (b : Bool) (s : State) : State := if b then successSkip s else s

/-- A value produced into the accumulator, "optionally OR-ing into existing contents versus clearing
first depending on sub-function" (R101). -/
def produce (h : Handler) (fn : Nat) (v : Word) (s : State) : State :=
  { s with acc := if orsInto h fn then s.acc ||| v else v }

/-- The first character typed among what happens next, and the rest without it. -/
def takeKey : List Input → Option (Byte × List Input)
  | [] => none
  | i :: is =>
    match i with
    | .consoleKey b => some (b, is)
    | .call _ _ _ | .cpuMem _ _ | .cpuDmx _ _ | .cpuAcc _ | .cpuKeys _ | .cpuPc _
    | .hostFile _ _ _ | .construct _ | .teardown _ =>
      (takeKey is).map (fun p => (p.1, i :: p.2))

/-- A console read waits for input when a retry pattern follows the I/O instruction (R218, R219). -/
def blocks (s : State) : Bool :=
  retryPattern (memRead s s.pc).toOption (memRead s (s.pc + 1)).toOption

/-- Class 2 of the console (R218). A read that waits is completed by the next character typed, which
comes before anything the CPU does next; with none to come it stays at its call, and has changed nothing
yet. DEDUCED: log entry 28. What a read that does not wait does with none pending is open, the accumulator
it leaves where it does not complete too. DESIGN CHOICE, safe: log entry 27. -/
def consoleInput (fn dev : Nat) (s : State) : State :=
  match s.consoleIn with
  | b :: bs => successSkip (produce .console fn (inputWord b) { s with consoleIn := bs })
  | [] =>
    if blocks s then
      match takeKey s.inputs with
      | some (b, rest) =>
        successSkip (produce .console fn (inputWord b) { s with inputs := rest })
      | none => { s with inputs := .call .input fn dev :: s.inputs }
    else
      match emptyRead s.draws with
      | some v => successSkip (produce .console fn v { s with draws := s.draws + 1 })
      | none => { s with acc := emptyReadAcc s.draws s.acc, draws := s.draws + 1 }

/-- A recognized call to the console (R101, R218). -/
def consoleCall (cls : IoClass) (fn dev : Nat) (s : State) : State :=
  match cls with
  | .control =>
    signalIf (controlSignals .console fn) { s with consoleIn := controlInput fn s.consoleIn }
  | .statusTest => signalIf (!s.consoleIn.isEmpty) s
  | .input => consoleInput fn dev s
  | .output => successSkip { s with consoleOut := s.consoleOut ++ [outputChar s.acc] }

/-- A recognized call to the tape, which "unconditionally fails" (R220): no success is signalled. What
a failed class 2 function leaves in the accumulator is open. DEDUCED: log entry 29. -/
def tapeCall (cls : IoClass) (fn : Nat) (s : State) : State :=
  match cls with
  | .control => s
  | .statusTest => s
  | .input => { s with acc := tapeInput fn s.acc }
  | .output => s

/-- A recognized call to the control panel: reads and writes with fixed, state-free responses (R101,
R220). What class 0 does to the panel's register is open. DESIGN CHOICE, safe: log entry 27; DEDUCED: log
entry 29. -/
def panelCall (cls : IoClass) (fn : Nat) (s : State) : State :=
  match cls with
  | .control =>
    signalIf (controlSignals .controlPanel fn) { s with panel := controlPanelWord fn s.panel }
  | .statusTest => signalIf (panelReady fn) s
  | .input => successSkip (produce .controlPanel fn (panelValue fn) s)
  | .output => successSkip { s with panel := s.acc }

/-- A call to a device address that is no disk controller's (R100, R101, R108, R217 to R221): fatal
where no handler or the generic-null one answers, or the device does not recognize the function.
DESIGN CHOICE, safe: log entry 30. -/
def deviceCall (cls : IoClass) (fn dev : Nat) (s : State) : State :=
  match handlerAt s dev with
  | none => raise (.unsupportedFunction cls fn dev) s
  | some .genericNull => raise (.unsupportedFunction cls fn dev) s
  | some .console =>
    if recognizes s .console cls fn then consoleCall cls fn dev s
    else raise (.unsupportedFunction cls fn dev) s
  | some .tape =>
    if recognizes s .tape cls fn then tapeCall cls fn s
    else raise (.unsupportedFunction cls fn dev) s
  | some .controlPanel =>
    if recognizes s .controlPanel cls fn then panelCall cls fn s
    else raise (.unsupportedFunction cls fn dev) s

end Sys2Proof.Machine
end

