-- ==== Sys2Proof/Machine/Call.lean ====
section
/-! DEFINITION. The dispatch contract (spec 40_dispatch.md) and the controller instances it addresses
(R109), and the other inputs of the CPU and the host between channel programs: what the CPU writes, the
backing files, the console's keys, the construction and the teardown of controllers (R230, R233,
R238). -/

namespace Sys2Proof.Machine

open Sys2Proof.Config

/-! ### Load OAR -/

/-- The start of a load-OAR call (R102): the OAR takes the accumulator and the interpreter runs. -/
def loadOar (s : State) : State := { s with oar := s.acc, run := .running }

/-- What a load-OAR call does after an order (R102, R103): at a Halt the interpreter is idle, and the
call returns and signals success, once; while it runs the call goes on; after a fatal condition the
call never returns. DESIGN CHOICE, safe: log entry 10. -/
def endCall (s : State) : State :=
  match s.run with
  | .idle => successSkip s
  | .running => s
  | .faulted _ => s

/-- The outcome of an order inside its load-OAR call. -/
def inCall (o : Host.Outcome State Fault Refusal) : Host.Outcome State Fault Refusal :=
  match o with
  | .next s => .next (endCall s)
  | .fault r => .fault r
  | .refused r => .refused r

/-! ### Controller instances -/

/-- The controller state of the instance in hand. -/
def inHand (s : State) : Controller where
  dev := s.dev
  oar := s.oar
  status := s.status
  selUnit := s.selUnit
  openUnit := s.openUnit
  dmaChan := s.dmaChan
  dmaNch := s.dmaNch
  run := s.run
  events := s.events

/-- The machine with another controller state in hand. -/
def takeInHand (c : Controller) (s : State) : State :=
  { s with
    dev := c.dev
    oar := c.oar
    status := c.status
    selUnit := c.selUnit
    openUnit := c.openUnit
    dmaChan := c.dmaChan
    dmaNch := c.dmaNch
    run := c.run
    events := c.events }

/-- Every instance that exists: the one in hand, unless it was destroyed, and the others. -/
def allInstances (s : State) : List Controller :=
  if s.live then inHand s :: s.others else s.others

/-- Take the instance `c` in hand and put the one in hand back among the others. There is one instance
at a device address (R109): an earlier record at `c`'s address is replaced. -/
def bringIn (c : Controller) (s : State) : State :=
  { takeInHand c s with
    others := (allInstances s).filter (fun d => d.dev != c.dev), live := true }

/-- The machine with the instance at a device address in hand, if there is one (R109). -/
def address (dev : Nat) (s : State) : Option State :=
  if dev = s.dev ∧ s.live = true then some s
  else (s.others.find? (fun c => c.dev == dev)).map (fun c => bringIn c s)

/-- A call to the disk controller in hand: it recognizes load OAR only (R102, R106). -/
def diskCall (cls : IoClass) (fn dev : Nat) (s : State) : State :=
  if cls = .output ∧ fn = s.params.loadOarFn then loadOar s
  else raise (.unsupportedFunction cls fn dev) s

/-- `Dispatch(class, fn, dev)` (R100, R109): the addressed controller instance answers, or the device
the registry names. -/
def dispatch (cls : IoClass) (fn dev : Nat) (s : State) : State :=
  match address dev s with
  | some t => diskCall cls fn dev t
  | none => deviceCall cls fn dev s

/-! ### The other inputs -/

/-- The CPU stores a word of main memory (R35, R235). DESIGN CHOICE, safe, outside memory: log entry
22. -/
def cpuStore (addr value : Word) (s : State) : Host.Outcome State Fault Refusal :=
  if addr.toNat < s.params.memWords then .next { s with mem := s.mem.writeWord addr value }
  else .refused (.cpuOutsideMemory addr)

/-- A controller instance as constructed: every field at its reset value (R41, R230). DESIGN CHOICE,
unsafe for `oar` and `dmaNch`: log entry 3. -/
def newController (dev : Nat) (statusReset : Word) : Controller where
  dev := dev
  oar := State.reset.oar
  status := statusReset
  selUnit := State.reset.selUnit
  openUnit := State.reset.openUnit
  dmaChan := State.reset.dmaChan
  dmaNch := State.reset.dmaNch
  run := State.reset.run
  events := State.reset.events

/-- The construction of a controller instance, the block's reset: its fields take their reset values,
and neither the shared state nor another instance is touched (R41, R109, R230, R232). DESIGN CHOICE:
log entry 11. -/
def construct (dev : Nat) (s : State) : State := bringIn (newController dev s.params.statusReset) s

/-- Teardown of the instance at a device address: its open file, if any, is closed (R233). Where there
is none nothing happens. DESIGN CHOICE: log entry 11. -/
def teardown (dev : Nat) (s : State) : State :=
  match address dev s with
  | some t => { closeOpen t with live := false }
  | none => s

/-- What an input does. -/
def deliver (i : Input) (s : State) : Host.Outcome State Fault Refusal :=
  match i with
  | .call cls fn dev => .next (dispatch cls fn dev s)
  | .cpuMem addr value => cpuStore addr value s
  | .cpuDmx i value => .next (dmxWrite i value s)
  | .cpuAcc value => .next { s with acc := value }
  | .cpuKeys value => .next { s with keys := value }
  | .cpuPc value => .next { s with pc := value }
  | .hostFile dev u file => .next { s with store := setFile dev u file s.store }
  | .consoleKey b => .next { s with consoleIn := s.consoleIn ++ [b] }
  | .construct dev => .next (construct dev s)
  | .teardown dev => .next (teardown dev s)

/-- One step while no channel program runs: the next pending input, if there is one; with none the
machine stays as it is (R231). DESIGN CHOICE, safe: log entry 9. -/
def idleStep (s : State) : Host.Outcome State Fault Refusal :=
  match s.inputs with
  | [] => .next s
  | i :: rest => deliver i { s with inputs := rest }

/-- The state with the given words at the OAR and its two successors, and the interpreter running. -/
def placeOrder (ws : List Word) (s : State) : State :=
  { s with mem := s.mem.writeWords s.oar ws, run := .running }

end Sys2Proof.Machine
end

