-- ==== Sys2Proof/Machine/Disk.lean ====
section
/-! DEFINITION. The meanings of the disk orders (spec 42_orders_disk.md): Format, Read, Write, Seek,
SelectUnit, SelectDMA. The order's address `a` is `s.oar` (R127). -/

namespace Sys2Proof.Machine

/-- Format (R141): "not implemented (log only)", no effect but the advance by 3. -/
def execFormat (c : Bool) (_recsize : BitVec 4) (_track : BitVec 10) (_head : BitVec 6)
    (_count : BitVec 8) (s : State) : Host.Outcome State Fault Refusal :=
  conditional c .format s (fun s => .done (advance .format s))

/-- The transfer of a Read with unit `u` open (R143): the DMA selection is checked, then the transfer
runs on the pair of the selected channel at the CHS offset. -/
def readTransfer (u : UnitIndex) (track : BitVec 10) (head : BitVec 6) (record : BitVec 8)
    (s : State) : Effect :=
  match s.dmaChan with
  | none => .raised (.dmaNotSelected s.oar) s
  | some ch => dmaTransfer (pairIndex ch) u (chsOffset track head record) s

/-- Read (R143, R144): with no file open it reports not-ready and goes on; else the transfer. The
recsize field has no effect (R142). -/
def execRead (c : Bool) (_recsize : BitVec 4) (track : BitVec 10) (head : BitVec 6)
    (record : BitVec 8) (s : State) : Host.Outcome State Fault Refusal :=
  conditional c .read s (fun s =>
    match s.openUnit with
    | none => .done (advance .read (setNotReady s))
    | some u => (readTransfer u track head record s).bind (fun s => .done (advance .read s)))

/-- Write (R145): "not implemented (log only)", no effect but the advance by 3. -/
def execWrite (c : Bool) (_recsize : BitVec 4) (_track : BitVec 10) (_head : BitVec 6)
    (_record : BitVec 8) (s : State) : Host.Outcome State Fault Refusal :=
  conditional c .write s (fun s => .done (advance .write s))

/-- Seek (R146, R147): no effect but the advance by 2. -/
def execSeek (c : Bool) (_track : BitVec 10) (_restore _clear : Bool) (s : State) :
    Host.Outcome State Fault Refusal :=
  conditional c .seek s (fun s => .done (advance .seek s))

/-- SelectUnit (R148): the selection takes the requested index whether or not the open succeeds, and
the open file changes to that unit's unless it is the open one already. -/
def execSelUnit (c : Bool) (unitfield : BitVec 4) (s : State) :
    Host.Outcome State Fault Refusal :=
  conditional c .selUnit s (fun s =>
    match unitIndex s.params.unitFieldPolicy unitfield with
    | .error r => .raised r s
    | .ok u => .done (advance .selUnit (changeUnit u (selectUnit u s))))

/-- SelectDMA (R152): records the channel number and the channel count field, which no order reads.
DESIGN CHOICE, unsafe where the field is not 0 (R153): log entry 21. -/
def execSelDma (c : Bool) (channel : Word) (nch : BitVec 4) (s : State) :
    Host.Outcome State Fault Refusal :=
  conditional c .selDma s (fun s =>
    .done (advance .selDma { s with dmaChan := some channel, dmaNch := nch }))

end Sys2Proof.Machine
end

