-- ==== Sys2Proof/Machine/Program.lean ====
section
/-! DEFINITION. The meanings of the program orders (spec 43_orders_program.md): Halt, Stall,
StoreStatus, StoreOAR, Interrupt, Jump. The order's address `a` is `s.oar` (R127). -/

namespace Sys2Proof.Machine

/-- Halt (R170): the interpreter is idle and the OAR stays at the Halt. -/
def execHalt (c : Bool) (s : State) : Host.Outcome State Fault Refusal :=
  conditional c .halt s (fun s => .done { s with run := .idle })

/-- Stall (R171): a no-op, the advance by 2. -/
def execStall (c : Bool) (s : State) : Host.Outcome State Fault Refusal :=
  conditional c .stall s (fun s => .done (advance .stall s))

/-- StoreStatus (R172, R173): the whole status word goes to memory and is not cleared. -/
def execStStatus (c : Bool) (target : Word) (s : State) : Host.Outcome State Fault Refusal :=
  conditional c .stStatus s (fun s =>
    (memWrite target s.status s).bind (fun s => .done (advance .stStatus s)))

/-- StoreOAR (R174): the order's own address, or the next order's, goes to memory. -/
def execStOar (c : Bool) (target : Word) (s : State) : Host.Outcome State Fault Refusal :=
  conditional c .stOar s (fun s =>
    (memWrite target (storeOarWord s.params.storeOarValue s.oar) s).bind
      (fun s => .done (advance .stOar s)))

/-- Interrupt (R175): "not implemented: fatal termination"; it raises F2 and does nothing else. -/
def execInterrupt (c : Bool) (vector : Word) (s : State) : Host.Outcome State Fault Refusal :=
  conditional c .interrupt s (fun s => .raised (.interruptOrder vector s.oar) s)

/-- Jump (R176): the OAR takes the target, which replaces the advance. -/
def execJump (c : Bool) (target : Word) (s : State) : Host.Outcome State Fault Refusal :=
  conditional c .jump s (fun s => .done { s with oar := target })

end Sys2Proof.Machine
end

