-- ==== Sys2Proof/Machine/Dispatch.lean ====
section
/-! DEFINITION. `Execute(kind, ...)` (R123): one arm per order, each a call of the order's meaning. -/

namespace Sys2Proof.Machine

def exec (i : Instr) (s : State) : Host.Outcome State Fault Refusal :=
  match i with
  | .halt c => Sys2Proof.Machine.execHalt c s
  | .format c recsize track head count => Sys2Proof.Machine.execFormat c recsize track head count s
  | .seek c track restore clear => Sys2Proof.Machine.execSeek c track restore clear s
  | .selUnit c unitfield => Sys2Proof.Machine.execSelUnit c unitfield s
  | .read c recsize track head record => Sys2Proof.Machine.execRead c recsize track head record s
  | .write c recsize track head record => Sys2Proof.Machine.execWrite c recsize track head record s
  | .stall c => Sys2Proof.Machine.execStall c s
  | .stStatus c target => Sys2Proof.Machine.execStStatus c target s
  | .stOar c target => Sys2Proof.Machine.execStOar c target s
  | .selDma c channel nch => Sys2Proof.Machine.execSelDma c channel nch s
  | .interrupt c vector => Sys2Proof.Machine.execInterrupt c vector s
  | .jump c target => Sys2Proof.Machine.execJump c target s

end Sys2Proof.Machine
end

