-- ==== Sys2Proof/Machine/Step.lean ====
section
/-! DEFINITION. One step of the machine (R14, R15): while a channel program runs, one order
(`OrderStep()`, R120) inside its load-OAR call (R102); while the interpreter is idle, one input of the
CPU or the host; none after a fatal condition (R201). And the host's way to place one instruction
where the next step fetches it. -/

namespace Sys2Proof.Machine

/-- `OrderStep()` (R120): fetch and decode the order at the OAR, execute it, and at a Halt end the
load-OAR call (R102). A fatal condition of the fetch is raised with nothing else changed (R122). -/
def orderStep (s : State) : Host.Outcome State Fault Refusal :=
  match fetch s with
  | .error r => .next (raise r s)
  | .ok i => inCall (exec i s)

/-- One step. `Faulted` is never left: no step is enabled there, and the machine answers the reason
(R29, R201). -/
def step (s : State) : Host.Outcome State Fault Refusal :=
  match s.run with
  | .running => orderStep s
  | .idle => idleStep s
  | .faulted r => .fault r

/-- The state with one instruction, given as a number with the bit numbering of
spec/opcode_table.json, at the OAR, and the interpreter running, so that the next step fetches and
runs it. It stands for the load-OAR call that starts a program. DESIGN CHOICE, safe: log entry 16. -/
def State.withFetchWord (s : State) (nbits w : Nat) : State :=
  placeOrder (tableWords nbits w) s

end Sys2Proof.Machine
end

