-- ==== Sys2Proof/Safety.lean ====
section
/-! DEFINITION. The terms statements use: the spec's codes of the fatal conditions (R200) and which of
them are the spec's own refusals (R202); the invariants of the machine, each a predicate of a state
alone; the replay of a backing-store history (R37, R64). -/

namespace Sys2Proof.Machine

open Sys2Proof.Config

/-- The spec's code of a fatal condition, the n of its F<n> (R200). -/
def Fault.code : Fault → Nat
  | .unrecognizedOrder _ _ => 1
  | .interruptOrder _ _ => 2
  | .unsupportedFunction _ _ _ => 3
  | .shortRead _ _ _ => 4
  | .memoryOutOfRange _ => 5
  | .dmaNotSelected _ => 6
  | .dmaZeroCount _ => 7
  | .badUnitField _ => 8

/-- F5 to F8 are the spec's refusals of cases the source leaves undefined; F1 to F4 are the source's
(R202). The spec leaves open which an F3 for a disk function other than load OAR is: R202 counts it as the
source's, the line U4 of spec/93 as the spec's refusal (R6, R106). It counts as the source's here. DESIGN
CHOICE, safe: log entry 31. -/
def Fault.specRefusal (f : Fault) : Bool := 5 ≤ f.code

/-- The controller is in the terminal faulted state (R201). -/
def State.isFaulted (s : State) : Bool :=
  match s.run with
  | .faulted _ => true
  | .idle => false
  | .running => false

/-- Main memory is in its canonical form and holds nothing at or above `MEM_WORDS` (R50). -/
abbrev State.MemOk (s : State) : Prop :=
  s.mem.wf ∧ ∀ c ∈ s.mem, c.1 < 2 * s.params.memWords

/-- Every controller record of the machine: the one in hand, which stays after its teardown, and those of
the other instances (R109). -/
def State.controllers (s : State) : List Controller := inHand s :: s.others

/-- Every status bit outside `NOT_READY_MASK` has its reset value, in every instance (R22). -/
abbrev State.StatusOk (s : State) : Prop :=
  ∀ c ∈ s.controllers,
    c.status &&& ~~~s.params.notReadyMask = s.params.statusReset &&& ~~~s.params.notReadyMask

/-- In every instance the selected unit is the open unit whenever a file is open (R24). -/
abbrev State.SelectionOk (s : State) : Prop :=
  ∀ c ∈ s.controllers, c.openUnit = none ∨ c.openUnit = c.selUnit

/-- Under `UNIT_FIELD_POLICY = fault` the unit fields of every instance hold indices 0 to 3 (R24,
R25). -/
abbrev State.UnitsOk (s : State) : Prop :=
  s.params.unitFieldPolicy = .fault →
    ∀ c ∈ s.controllers, (∀ u ∈ c.selUnit, u.val < 4) ∧ (∀ u ∈ c.openUnit, u.val < 4)

/-- There is one instance at a device address, and at most one runs: the one in hand (R29, R109). -/
abbrev State.InstancesOk (s : State) : Prop :=
  ((allInstances s).map Controller.dev).Nodup ∧ ∀ c ∈ s.others, c.run = .idle

/-- What file is open after a history of port operations, from a given open file; `none` where the
history opens a second file, or closes or reads a file that is not the open one (R64). -/
def replayFrom (cur : Option UnitIndex) : List Event → Option (Option UnitIndex)
  | [] => some cur
  | .opened u ok :: es =>
    if cur = none then replayFrom (if ok then some u else none) es else none
  | .closed u :: es => if cur = some u then replayFrom none es else none
  | .readBytes u _ _ :: es => if cur = some u then replayFrom cur es else none

/-- In every instance the event history is one of a controller with at most one open file, and the file
it leaves open is `ctl.openUnit` (R37, R64). -/
abbrev State.HistoryOk (s : State) : Prop :=
  ∀ c ∈ s.controllers, replayFrom none c.events = some c.openUnit

/-- The bits of a slot that a field, the code or the flag names under the default layout (R83 to R91);
every other bit is ignored on decode (R92). -/
def namedBits : OrderKind → Slot
  | .halt => ⟨0xF800, 0x0000, 0x0000⟩
  | .format => ⟨0xF80F, 0x03FF, 0xFF3F⟩
  | .seek => ⟨0xF800, 0xC3FF, 0x0000⟩
  | .selUnit => ⟨0xF800, 0x000F, 0x0000⟩
  | .read => ⟨0xF80F, 0x03FF, 0xFF3F⟩
  | .write => ⟨0xF80F, 0x03FF, 0xFF3F⟩
  | .stall => ⟨0xF800, 0x0000, 0x0000⟩
  | .stStatus => ⟨0xF800, 0xFFFF, 0x0000⟩
  | .stOar => ⟨0xF800, 0xFFFF, 0x0000⟩
  | .selDma => ⟨0xF80F, 0xFFFF, 0x0000⟩
  | .interrupt => ⟨0xF800, 0xFFFF, 0x0000⟩
  | .jump => ⟨0xF800, 0xFFFF, 0x0000⟩

/-- Two slots agree on the named bits of a kind. -/
abbrev SameNamedBits (k : OrderKind) (s t : Slot) : Prop :=
  s.w0 &&& (namedBits k).w0 = t.w0 &&& (namedBits k).w0 ∧
  s.w1 &&& (namedBits k).w1 = t.w1 &&& (namedBits k).w1 ∧
  s.w2 &&& (namedBits k).w2 = t.w2 &&& (namedBits k).w2

/-- The words of the slot at the OAR, the third of them only part of it for a 3-word order. -/
def slotAt (s : State) : Slot :=
  ⟨s.mem.readWord s.oar, s.mem.readWord (s.oar + 1), s.mem.readWord (s.oar + 2)⟩

/-- The first `n` words from the OAR lie in memory. -/
abbrev SlotInMemory (s : State) (n : Nat) : Prop :=
  ∀ k < n, (s.oar + BitVec.ofNat 16 k).toNat < s.params.memWords

/-- The state after an order of kind `k` was skipped (R125): the advance, and the draw that was
taken. -/
def skipped (c : Bool) (k : OrderKind) (s : State) : State :=
  { afterCond c s with oar := s.oar + BitVec.ofNat 16 k.size }

end Sys2Proof.Machine
end

