-- ==== Sys2Proof/Certificates/Slice0/Obligations.lean ====
section
/-! DEFINITION. The statements for the provers. Each is about the machine, over all states and all
parameter values (R8) unless it says otherwise, and follows rules of spec/; the docstrings cite them.
`condHolds c s` says that an order with flag `c` executes (R124): the flag is clear, or the free value
drawn is true. `afterCond c s` is `s` with the draw taken. An unsettled condition is no hypothesis
anywhere: a result states both the executed and the skipped case. -/

open Sys2Proof Sys2Proof.Config Sys2Proof.Machine

/-! ### Encoding -/

/-- R80 to R97: decoding the words of an order gives the order back, and leaves the words after it,
for every injective `ORDER_CODE`, every layout in which the order's fields fit and share no bit, and
every value of every operand. -/
def Obligations.DecodeOfEncode : Prop :=
  ∀ (e : Encoding) (i : Instr) (rest : List Word), i.WellFormed e →
    decode e (encode e i ++ rest) = .order i rest

/-- R99, under the default `ORDER_CODE` and `FIELD_LAYOUT` (the spec's decisions D2 and D3): its
examples, in its order. -/
def Obligations.SpecExamplesEncodeAndDecode : Prop :=
  ∀ p ∈ ([([0x0000, 0x0000], .halt false), ([0x0800, 0x0000], .halt true),
      ([0x2000, 0x0000, 0x0900], .format false 0 0 0 9),
      ([0x3000, 0x0005], .seek false 5 false false), ([0x3000, 0x8000], .seek false 0 true false),
      ([0x4000, 0x0001], .selUnit false 0b0001),
      ([0x5000, 0x0001, 0x0302], .read false 0 1 2 3),
      ([0x6000, 0x0001, 0x0302], .write false 0 1 2 3),
      ([0x7000, 0x0000], .stall false), ([0x9000, 0x0061], .stStatus false 0x61),
      ([0xA000, 0x0060], .stOar false 0x60), ([0xB000, 0x0002], .selDma false 2 0),
      ([0xC000, 0x0100], .interrupt false 0x100), ([0xD000, 0x0050], .jump false 0x50)] :
      List (List Word × Instr)),
    encode .standard p.2 = p.1 ∧ decode .standard p.1 = .order p.2 []

/-- R92 under the default layout (the spec's decision D42): bits that no field names select nothing
and raise nothing; two slots that agree on the named bits of the kind decode to the same order. -/
def Obligations.UnnamedBitsIgnored : Prop :=
  ∀ (k : OrderKind) (s t : Slot), kindOf OrderCode.standard (codeField s.w0) = some k →
    SameNamedBits k s t →
    (decode .standard [s.w0, s.w1, s.w2]).order? = (decode .standard [t.w0, t.w1, t.w2]).order? ∧
    ((decode .standard [s.w0, s.w1, s.w2]).order?).isSome

/-- R94: the size of an order is a function of its code alone, 3 for Format, Read and Write and 2 for
every other kind, and the decoder takes exactly that many words. -/
def Obligations.SizeIsOfTheCodeAlone : Prop :=
  ∀ (e : Encoding) (w0 w1 w2 : Word) (rest ws : List Word) (i : Instr),
    decode e (w0 :: w1 :: w2 :: rest) = .order i ws →
    kindOf e.codes (codeField w0) = some i.kind ∧
    i.size = (if i.kind = .format ∨ i.kind = .read ∨ i.kind = .write then 3 else 2) ∧
    ws = (w0 :: w1 :: w2 :: rest).drop i.size

/-- R93: a code that no kind has is no order, whatever the flag; under the default `ORDER_CODE` (the
spec's decision D2) these are 1, 8, 14 and 15. -/
def Obligations.UnrecognizedCodes : Prop :=
  (∀ (e : Encoding) (w0 : Word) (ws : List Word), kindOf e.codes (codeField w0) = none →
    decode e (w0 :: ws) = .unrecognized (codeField w0)) ∧
  (∀ (m : OrderCode) (code : BitVec 4),
    kindOf m code = none ↔ ∀ k : OrderKind, m.codeOf k ≠ code) ∧
  (∀ code : BitVec 4, kindOf OrderCode.standard code = none ↔
    code = 1 ∨ code = 8 ∨ code = 14 ∨ code = 15)

/-! ### The order cycle -/

/-- R120, R102: when the words at the OAR lie in memory and decode to the order `i`, a step of the
running interpreter is `exec i`, and at a Halt the load-OAR call that runs the program returns and
signals success (log entry 10). -/
def Obligations.StepRunsTheDecodedOrder : Prop :=
  ∀ (s : State) (i : Instr) (rest : List Word), s.run = .running → SlotInMemory s i.size →
    decode s.params.encoding [(slotAt s).w0, (slotAt s).w1, (slotAt s).w2] = .order i rest →
    ∃ t, exec i s = .next t ∧ step s = .next (if t.run = .idle then successSkip t else t)

/-- R121, R122: the fetch faults of a step, in their order, each with nothing but `ctl.run` changed:
`w0` outside memory; then an unrecognized code, whatever its flag; then `w1`; then `w2` of a 3-word
order. -/
def Obligations.FetchFaultsInOrder : Prop :=
  ∀ s : State, s.run = .running →
    (¬ s.oar.toNat < s.params.memWords →
      step s = .next { s with run := .faulted (.memoryOutOfRange s.oar) }) ∧
    (s.oar.toNat < s.params.memWords →
      (kindOf s.params.encoding.codes (codeField (slotAt s).w0) = none →
        step s = .next { s with
          run := .faulted (.unrecognizedOrder (codeField (slotAt s).w0) s.oar) }) ∧
      ∀ k, kindOf s.params.encoding.codes (codeField (slotAt s).w0) = some k →
        (¬ (s.oar + 1).toNat < s.params.memWords →
          step s = .next { s with run := .faulted (.memoryOutOfRange (s.oar + 1)) }) ∧
        ((s.oar + 1).toNat < s.params.memWords → k.size = 3 →
          ¬ (s.oar + 2).toNat < s.params.memWords →
          step s = .next { s with run := .faulted (.memoryOutOfRange (s.oar + 2)) }))

/-- R124, R125: a conditional order takes one draw; if the draw is true the order executes as its
unconditional form does, and if it is false only the OAR advances, by the order's natural size, for
every kind, Halt, Interrupt and Jump among them. -/
def Obligations.ConditionalOrderExecutesOrSkips : Prop :=
  ∀ (i : Instr) (s : State), i.cond = true →
    exec i s =
      if Config.drawCond s.draws then exec i.unconditional { s with draws := s.draws + 1 }
      else .next { s with draws := s.draws + 1, oar := s.oar + BitVec.ofNat 16 i.size }

/-- R126, R177: an order that leaves a running interpreter running, and is no Jump, has advanced the
OAR by its size; a Jump's next OAR is its target or, skipped, its successor's address; an order that
stops the interpreter (a Halt or a fatal condition) leaves the OAR at the order. -/
def Obligations.OarAdvancesJumpsOrStays : Prop :=
  ∀ (i : Instr) (s t : State), s.run = .running → exec i s = .next t →
    (t.run = .running →
      t.oar = s.oar + BitVec.ofNat 16 i.size ∨ ∃ c a, i = .jump c a ∧ t.oar = a) ∧
    (t.run ≠ .running → t.oar = s.oar)

/-- R73, R240: the word a StoreStatus writes over the next order's first word is the word
the next fetch decodes. -/
def Obligations.StoredWordIsFetchedNext : Prop :=
  ∀ (s t : State), (s.oar + 2).toNat < s.params.memWords →
    exec (.stStatus false (s.oar + 2)) s = .next t →
    t.oar = s.oar + 2 ∧ (slotAt t).w0 = s.status ∧
    (kindOf t.params.encoding.codes (codeField s.status) = none →
      fetch t = .error (.unrecognizedOrder (codeField s.status) t.oar))

/-! ### What each order does -/

/-- R170: Halt leaves the interpreter idle and the OAR at the Halt; a conditional Halt that is skipped
goes on at `a + 2`. Nothing else changes. -/
def Obligations.HaltResult : Prop :=
  ∀ (c : Bool) (s : State), exec (.halt c) s =
    .next (if condHolds c s then { afterCond c s with run := .idle }
      else { afterCond c s with oar := s.oar + 2 })

/-- R141, R145, R146, R171: Format, Write, Seek and Stall have no effect, whatever their operands, the
open file and the DMA selection, but the advance, by 3 for Format and Write and by 2 for Seek and
Stall. -/
def Obligations.NoEffectOrdersOnlyAdvance : Prop :=
  ∀ (c : Bool) (rs : BitVec 4) (t : BitVec 10) (h : BitVec 6) (r : BitVec 8) (re cl : Bool)
    (s : State),
    exec (.format c rs t h r) s = .next { afterCond c s with oar := s.oar + 3 } ∧
    exec (.write c rs t h r) s = .next { afterCond c s with oar := s.oar + 3 } ∧
    exec (.seek c t re cl) s = .next { afterCond c s with oar := s.oar + 2 } ∧
    exec (.stall c) s = .next { afterCond c s with oar := s.oar + 2 }

/-- R176: Jump sets the OAR to its target, which replaces the advance; a target outside memory is no
fault of the Jump. -/
def Obligations.JumpResult : Prop :=
  ∀ (c : Bool) (target : Word) (s : State), exec (.jump c target) s =
    .next { afterCond c s with oar := if condHolds c s then target else s.oar + 2 }

/-- R175: an executed Interrupt raises F2 with its vector and its address and changes nothing else,
the OAR included; a skipped one goes on at `a + 2` without a fault. -/
def Obligations.InterruptResult : Prop :=
  ∀ (c : Bool) (vector : Word) (s : State), exec (.interrupt c vector) s =
    .next (if condHolds c s then
        { afterCond c s with run := .faulted (.interruptOrder vector s.oar) }
      else { afterCond c s with oar := s.oar + 2 })

/-- R152: SelectDMA records the whole channel word and the channel count field, and touches no DMA
register. -/
def Obligations.SelectDmaResult : Prop :=
  ∀ (c : Bool) (channel : Word) (nch : BitVec 4) (s : State), exec (.selDma c channel nch) s =
    .next (if condHolds c s then
        { afterCond c s with dmaChan := some channel, dmaNch := nch, oar := s.oar + 2 }
      else { afterCond c s with oar := s.oar + 2 })

/-- R172, R173: StoreStatus with its target in memory writes the whole status word there and does not
clear it. -/
def Obligations.StoreStatusResult : Prop :=
  ∀ (c : Bool) (target : Word) (s : State), target.toNat < s.params.memWords →
    exec (.stStatus c target) s =
      .next (if condHolds c s then
          { afterCond c s with mem := s.mem.writeWord target s.status, oar := s.oar + 2 }
        else { afterCond c s with oar := s.oar + 2 })

/-- R174: StoreOAR with its target in memory writes its own address there, or under
`STOREOAR_VALUE = next` the next order's. -/
def Obligations.StoreOarResult : Prop :=
  ∀ (c : Bool) (target : Word) (s : State), target.toNat < s.params.memWords →
    exec (.stOar c target) s =
      .next (if condHolds c s then
          { afterCond c s with
            mem := s.mem.writeWord target
              (if s.params.storeOarValue = .self then s.oar else s.oar + 2)
            oar := s.oar + 2 }
        else { afterCond c s with oar := s.oar + 2 })

/-- R172, R174, R52: a StoreStatus or StoreOAR whose target is at or above `MEM_WORDS` raises F5 and
changes nothing else. -/
def Obligations.StoreOutsideMemoryFaults : Prop :=
  ∀ (target : Word) (s : State), ¬ target.toNat < s.params.memWords →
    exec (.stStatus false target) s =
      .next { s with run := .faulted (.memoryOutOfRange target) } ∧
    exec (.stOar false target) s = .next { s with run := .faulted (.memoryOutOfRange target) }

/-- R51, R52, R172: after a StoreStatus or StoreOAR the target word reads as the word stored, and every
byte of memory outside that word reads as before. -/
def Obligations.StoredWordReadsBack : Prop :=
  ∀ (target : Word) (s t u : State), target.toNat < s.params.memWords →
    exec (.stStatus false target) s = .next t → exec (.stOar false target) s = .next u →
    memRead t target = .ok s.status ∧
    memRead u target = .ok (if s.params.storeOarValue = .self then s.oar else s.oar + 2) ∧
    ∀ b, b / 2 ≠ target.toNat →
      t.mem.readByte b = s.mem.readByte b ∧ u.mem.readByte b = s.mem.readByte b

/-- R96: the unit index of every 4-bit field, under both policies. -/
def Obligations.UnitIndexOfEveryField : Prop :=
  (∀ v : BitVec 4, unitIndex .fault v =
    if v = 0b0001 then .ok 0 else if v = 0b0010 then .ok 1 else if v = 0b0100 then .ok 2
    else if v = 0b1000 then .ok 3 else .error (.badUnitField v)) ∧
  (∀ v : BitVec 4, ∃ j, unitIndex .literal v = .ok j ∧
    j.val = if v.toNat / 2 = 4 then 3 else v.toNat / 2)

/-- R148: SelectUnit of the unit whose file is open changes only the selection and the OAR: no close,
no open, the status unchanged. -/
def Obligations.SelectOpenUnitResult : Prop :=
  ∀ (c : Bool) (f : BitVec 4) (u : UnitIndex) (s : State),
    unitIndex s.params.unitFieldPolicy f = .ok u → s.openUnit = some u →
    exec (.selUnit c f) s =
      .next (if condHolds c s then { afterCond c s with selUnit := some u, oar := s.oar + 2 }
        else { afterCond c s with oar := s.oar + 2 })

/-- R148: SelectUnit of another unit whose file is present closes the open file, if any, then opens
that file; not-ready is cleared when `NR_CLEAR_ON_SELECT`. -/
def Obligations.SelectPresentUnitResult : Prop :=
  ∀ (c : Bool) (f : BitVec 4) (u : UnitIndex) (s : State),
    unitIndex s.params.unitFieldPolicy f = .ok u → s.openUnit ≠ some u → present s u = true →
    exec (.selUnit c f) s =
      .next (if condHolds c s then
          { afterCond c s with
            selUnit := some u
            openUnit := some u
            events := s.events ++ s.openUnit.toList.map Event.closed ++ [.opened u true]
            status := if s.params.nrClearOnSelect then s.status &&& ~~~s.params.notReadyMask
              else s.status
            oar := s.oar + 2 }
        else { afterCond c s with oar := s.oar + 2 })

/-- R148: SelectUnit of another unit whose file is absent closes the open file, if any, leaves no file
open and the status not-ready, and still takes the selection; it is not fatal. -/
def Obligations.SelectAbsentUnitResult : Prop :=
  ∀ (c : Bool) (f : BitVec 4) (u : UnitIndex) (s : State),
    unitIndex s.params.unitFieldPolicy f = .ok u → s.openUnit ≠ some u → present s u = false →
    exec (.selUnit c f) s =
      .next (if condHolds c s then
          { afterCond c s with
            selUnit := some u
            openUnit := none
            events := s.events ++ s.openUnit.toList.map Event.closed ++ [.opened u false]
            status := s.status ||| s.params.notReadyMask
            oar := s.oar + 2 }
        else { afterCond c s with oar := s.oar + 2 })

/-- R96, R148: under `UNIT_FIELD_POLICY = fault` a SelectUnit whose field is not one-hot raises F8 and
changes nothing else, the open file included. -/
def Obligations.BadUnitFieldFaults : Prop :=
  ∀ (f : BitVec 4) (s : State), s.params.unitFieldPolicy = .fault →
    f ≠ 0b0001 → f ≠ 0b0010 → f ≠ 0b0100 → f ≠ 0b1000 →
    exec (.selUnit false f) s = .next { s with run := .faulted (.badUnitField f) }

/-- R149 (a): once a SelectUnit has opened a unit's file, the same SelectUnit again only advances:
no event is appended. -/
def Obligations.SelectUnitIdempotent : Prop :=
  ∀ (f : BitVec 4) (u : UnitIndex) (s t : State),
    unitIndex s.params.unitFieldPolicy f = .ok u →
    exec (.selUnit false f) s = .next t → t.openUnit = some u →
    exec (.selUnit false f) t = .next { t with oar := t.oar + 2 }

/-- R149 (b): SelectUnit of unit `v` with unit `u` open appends `Close(u)` and then `Open(v, ok)`, also
when `v`'s file is absent, after which no file is open and the not-ready bits are set. -/
def Obligations.ReselectClosesThenOpens : Prop :=
  ∀ (f : BitVec 4) (u v : UnitIndex) (s t : State), s.openUnit = some u → u ≠ v →
    unitIndex s.params.unitFieldPolicy f = .ok v → exec (.selUnit false f) s = .next t →
    t.events = s.events ++ [.closed u, .opened v (present s v)] ∧
    t.openUnit = (if present s v then some v else none) ∧
    (present s v = false → t.status &&& s.params.notReadyMask = s.params.notReadyMask)

/-- R143: Read with no file open reports not-ready, advances by 3 and changes nothing else, whatever
the DMA selection. -/
def Obligations.ReadWithNoFileOpenResult : Prop :=
  ∀ (c : Bool) (rs : BitVec 4) (t : BitVec 10) (h : BitVec 6) (r : BitVec 8) (s : State),
    s.openUnit = none →
    exec (.read c rs t h r) s =
      .next (if condHolds c s then
          { afterCond c s with status := s.status ||| s.params.notReadyMask, oar := s.oar + 3 }
        else { afterCond c s with oar := s.oar + 3 })

/-- R143, R58, R54, R57: Read with a file open, a channel selected, a count of `n`, the buffer in
memory and the file long enough completes: word `k` of the buffer is the file's bytes `off + 2k` (bits
[15:8]) and `off + 2k + 1`, every byte of memory outside the buffer reads as before (cell `x` belongs
to word `x / 2`), the count register is 0, the address register has advanced by `n`, every other DMA
register is as before, one `Read` event is appended, the OAR advances by 3, and nothing else changes.
Skipped, it only advances. -/
def Obligations.ReadTransfersWords : Prop :=
  ∀ (c : Bool) (rs : BitVec 4) (tr : BitVec 10) (h : BitVec 6) (r : BitVec 8) (s : State)
    (u : UnitIndex) (ch : Word) (n : Nat), s.openUnit = some u → s.dmaChan = some ch →
    dmaWordCount s.params.zeroCountPolicy (dmxRead s (pairIndex ch)) = .ok n →
    (∀ k < n, (dmxRead s (addrIndex (pairIndex ch)) + BitVec.ofNat 16 k).toNat
      < s.params.memWords) →
    chsOffset tr h r + 2 * n ≤ (fileBytes s u).length →
    ∃ t, exec (.read c rs tr h r) s = .next t ∧
      (condHolds c s = false → t = { afterCond c s with oar := s.oar + 3 }) ∧
      (condHolds c s = true →
        (∀ k < n, ∃ b b' : Byte,
          (fileBytes s u)[chsOffset tr h r + 2 * k]? = some b ∧
          (fileBytes s u)[chsOffset tr h r + 2 * k + 1]? = some b' ∧
          t.mem.readWord (dmxRead s (addrIndex (pairIndex ch)) + BitVec.ofNat 16 k) =
            (b ++ b' : BitVec (8 + 8))) ∧
        (∀ x, (∀ k < n, x / 2 ≠
            (dmxRead s (addrIndex (pairIndex ch)) + BitVec.ofNat 16 k).toNat) →
          t.mem.readByte x = s.mem.readByte x) ∧
        dmxRead t (pairIndex ch) = 0 ∧
        dmxRead t (addrIndex (pairIndex ch)) =
          dmxRead s (addrIndex (pairIndex ch)) + BitVec.ofNat 16 n ∧
        (∀ j, j ≠ pairIndex ch → j ≠ addrIndex (pairIndex ch) → dmxRead t j = dmxRead s j) ∧
        t = { afterCond c s with
          mem := t.mem
          dmx := t.dmx
          events := s.events ++ [.readBytes u (chsOffset tr h r) (2 * n)]
          oar := s.oar + 3 })

/-- R143, R144: the faults of a Read with a file open, in their order: no channel selected (F6); the
count refused (F7); the first buffer word outside memory (F5); the file too short (F4, after its event
was appended). Each changes nothing else. Where the host removed the open unit's file between programs,
that the file then counts as too short is the model's choice (log entry 13, DESIGN CHOICE, unsafe) and
no rule's. -/
def Obligations.ReadFaultsInOrder : Prop :=
  ∀ (rs : BitVec 4) (tr : BitVec 10) (h : BitVec 6) (r : BitVec 8) (s : State) (u : UnitIndex),
    s.openUnit = some u →
    (s.dmaChan = none →
      exec (.read false rs tr h r) s =
        .next { s with run := .faulted (.dmaNotSelected s.oar) }) ∧
    ∀ ch, s.dmaChan = some ch →
      (s.params.zeroCountPolicy = .fault → countField (dmxRead s (pairIndex ch)) = 0 →
        exec (.read false rs tr h r) s =
          .next { s with run := .faulted (.dmaZeroCount (dmxRead s (pairIndex ch))) }) ∧
      ∀ n, dmaWordCount s.params.zeroCountPolicy (dmxRead s (pairIndex ch)) = .ok n →
        (∀ k < n, s.params.memWords ≤
            (dmxRead s (addrIndex (pairIndex ch)) + BitVec.ofNat 16 k).toNat →
          (∀ j < k, (dmxRead s (addrIndex (pairIndex ch)) + BitVec.ofNat 16 j).toNat
            < s.params.memWords) →
          exec (.read false rs tr h r) s = .next { s with
            run := .faulted (.memoryOutOfRange
              (dmxRead s (addrIndex (pairIndex ch)) + BitVec.ofNat 16 k)) }) ∧
        ((∀ k < n, (dmxRead s (addrIndex (pairIndex ch)) + BitVec.ofNat 16 k).toNat
            < s.params.memWords) →
          (fileBytes s u).length < chsOffset tr h r + 2 * n →
          exec (.read false rs tr h r) s = .next { s with
            events := s.events ++ [.readBytes u (chsOffset tr h r) (2 * n)]
            run := .faulted (.shortRead u (chsOffset tr h r) (2 * n)) })

/-- R142, R56, R152: the recsize field of a Read has no effect; and a Read does not depend on bits [15:5]
of the selected channel, nor on the recorded channel count field. -/
def Obligations.ReadIgnoresRecsizeAndHighChannelBits : Prop :=
  (∀ (c : Bool) (rs rs' : BitVec 4) (t : BitVec 10) (h : BitVec 6) (r : BitVec 8) (s : State),
    exec (.read c rs t h r) s = exec (.read c rs' t h r) s) ∧
  ∀ (c : Bool) (rs : BitVec 4) (tr : BitVec 10) (h : BitVec 6) (r : BitVec 8) (s t : State)
    (ch ch' : Word) (n : BitVec 4), ch &&& 0x1F = ch' &&& 0x1F → s.dmaChan = some ch →
    exec (.read c rs tr h r) s = .next t →
    exec (.read c rs tr h r) { s with dmaChan := some ch', dmaNch := n } =
      .next { t with dmaChan := some ch', dmaNch := n }

/-- R241: after a Read that transferred, a second Read on the same channel, with any fields, raises F7
under `ZERO_COUNT_POLICY = fault`, because the count register was left 0. -/
def Obligations.SecondReadOnAChannelFaults : Prop :=
  ∀ (rs rs' : BitVec 4) (tr tr' : BitVec 10) (h h' : BitVec 6) (r r' : BitVec 8) (s t : State)
    (u : UnitIndex), s.run = .running → s.params.zeroCountPolicy = .fault →
    s.openUnit = some u → exec (.read false rs tr h r) s = .next t → t.run = .running →
    exec (.read false rs' tr' h' r') t = .next { t with run := .faulted (.dmaZeroCount 0) }

/-! ### Operands -/

/-- R56, R57: the pair index is the rule's formula, at most 61, with bit 1 clear; the address register
is the entry 2 higher; the source's worked values; and two channels that differ in bits [4:0] share no
entry of the register bank. -/
def Obligations.PairIndexFormula : Prop :=
  (∀ ch : Word, (pairIndex ch).val = (ch.toNat % 32 / 2) * 4 + ch.toNat % 2 ∧
    (pairIndex ch).val ≤ 61 ∧ (pairIndex ch).val / 2 % 2 = 0 ∧
    (addrIndex (pairIndex ch)).val = (pairIndex ch).val + 2) ∧
  (pairIndex 0 = 0 ∧ pairIndex 1 = 1 ∧ pairIndex 2 = 4) ∧
  ∀ ch ch' : Word, ch &&& 0x1F ≠ ch' &&& 0x1F →
    pairIndex ch ≠ pairIndex ch' ∧ pairIndex ch ≠ addrIndex (pairIndex ch') ∧
    addrIndex (pairIndex ch) ≠ pairIndex ch' ∧
    addrIndex (pairIndex ch) ≠ addrIndex (pairIndex ch')

/-- R59, R236: a count register that holds `((4096 - n) << 4) | x` counts `n` words, for n from 1 to
4095 and any x; high 12 bits of 0 follow `ZERO_COUNT_POLICY`. -/
def Obligations.DmaCountDecoding : Prop :=
  (∀ (p : ZeroCountPolicy) (n : Nat) (x : BitVec 4), 1 ≤ n → n ≤ 4095 →
    dmaWordCount p ((BitVec.ofNat 16 (4096 - n) <<< 4) ||| x.setWidth 16) = .ok n) ∧
  (∀ x : BitVec 4, dmaWordCount .fault (x.setWidth 16) = .error (.dmaZeroCount (x.setWidth 16)) ∧
    dmaWordCount .zero (x.setWidth 16) = .ok 0 ∧ dmaWordCount .full (x.setWidth 16) = .ok 4096)

/-- R66, R67: the CHS translation is the rule's formula, exact, and the largest offset is the rule's;
an offset is a multiple of 2080, strictly increasing in each field with the others fixed, and over
geometry-valid triples (head below 40, record below 9) increasing exactly in the lexicographic order,
so that distinct valid triples have distinct offsets; outside them triples overlap. -/
def Obligations.ChsTranslation : Prop :=
  (∀ (t : BitVec 10) (h : BitVec 6) (r : BitVec 8),
    chsOffset t h r = (360 * t.toNat + 9 * h.toNat + r.toNat) * 2080 ∧
    chsOffset t h r ≤ 767732160) ∧
  chsOffset 1023 63 255 = 767732160 ∧
  (∀ (t : BitVec 10) (h : BitVec 6) (r : BitVec 8), 2080 ∣ chsOffset t h r) ∧
  (∀ (t t' : BitVec 10) (h : BitVec 6) (r : BitVec 8), t < t' →
    chsOffset t h r < chsOffset t' h r) ∧
  (∀ (t : BitVec 10) (h h' : BitVec 6) (r : BitVec 8), h < h' →
    chsOffset t h r < chsOffset t h' r) ∧
  (∀ (t : BitVec 10) (h : BitVec 6) (r r' : BitVec 8), r < r' →
    chsOffset t h r < chsOffset t h r') ∧
  (∀ (t t' : BitVec 10) (h h' : BitVec 6) (r r' : BitVec 8),
    h.toNat < 40 → h'.toNat < 40 → r.toNat < 9 → r'.toNat < 9 →
    (chsOffset t h r < chsOffset t' h' r' ↔
      t < t' ∨ (t = t' ∧ (h < h' ∨ (h = h' ∧ r < r'))))) ∧
  chsOffset 0 1 0 = chsOffset 0 0 9 ∧ chsOffset 1 0 0 < chsOffset 0 63 255

/-- R26, R65: two units of one controller have different file names, so comparing unit indices is
comparing files; the rule's example. -/
def Obligations.FileNamesDiffer : Prop :=
  (∀ (dev : Nat) (u v : UnitIndex), fileName dev u = fileName dev v → u = v) ∧
  fileName 0o26 1 = "dev26u1"

/-! ### Frames -/

/-- R151: SelectDMA is the only order that writes the DMA selection; executed, it records the channel
number and the channel count field and advances by 2. -/
def Obligations.OnlySelectDmaSelects : Prop :=
  (∀ s t : State, s.run = .running → step s = .next t →
    (t.dmaChan ≠ s.dmaChan ∨ t.dmaNch ≠ s.dmaNch) →
    ∃ c ch n, fetch s = .ok (.selDma c ch n) ∧ condHolds c s = true) ∧
  ∀ (c : Bool) (ch : Word) (n : BitVec 4) (s : State), condHolds c s = true →
    ∃ t, exec (.selDma c ch n) s = .next t ∧ t.dmaChan = some ch ∧ t.dmaNch = n ∧
      t.oar = s.oar + 2

/-- R40, R109 and the rules of the orders: what an order leaves unchanged. The CPU's registers, the
backing store, the other controller instances, the instance's device address and existence, the console
and the control panel, the parameters and the pending inputs are never changed by an order; memory only
by StoreStatus, StoreOAR and Read; the DMA registers only by Read; the status only by Read and
SelectUnit; the events only by Read and SelectUnit; the selection and the open file only by SelectUnit;
the DMA selection only by SelectDMA. -/
def Obligations.OrderFrame : Prop :=
  ∀ (i : Instr) (s t : State), exec i s = .next t →
    (t.acc = s.acc ∧ t.keys = s.keys ∧ t.pc = s.pc ∧ t.store = s.store ∧ t.params = s.params ∧
      t.inputs = s.inputs ∧ t.live = s.live ∧ t.draws = (afterCond i.cond s).draws ∧
      t.dev = s.dev ∧ t.others = s.others ∧ t.consoleIn = s.consoleIn ∧
      t.consoleOut = s.consoleOut ∧ t.panel = s.panel) ∧
    (i.kind ≠ .stStatus → i.kind ≠ .stOar → i.kind ≠ .read →
      ∀ b, t.mem.readByte b = s.mem.readByte b) ∧
    (i.kind ≠ .read → t.dmx = s.dmx) ∧
    (i.kind ≠ .read → i.kind ≠ .selUnit → t.status = s.status ∧ t.events = s.events) ∧
    (i.kind ≠ .selUnit → t.selUnit = s.selUnit ∧ t.openUnit = s.openUnit) ∧
    (i.kind ≠ .selDma → t.dmaChan = s.dmaChan ∧ t.dmaNch = s.dmaNch)

/-- R172, R174, R58: the memory frame of the orders that store. A StoreStatus or StoreOAR leaves every
byte outside its target word as it was; a Read leaves every byte outside its buffer, the words from
the address register on, as many as the count says, as it was, and changes no byte where no transfer
takes place. -/
def Obligations.StoringOrderFrame : Prop :=
  (∀ (c : Bool) (target : Word) (s t : State),
    (exec (.stStatus c target) s = .next t ∨ exec (.stOar c target) s = .next t) →
    ∀ b, b / 2 ≠ target.toNat → t.mem.readByte b = s.mem.readByte b) ∧
  (∀ (c : Bool) (rs : BitVec 4) (tr : BitVec 10) (h : BitVec 6) (r : BitVec 8) (s t : State),
    exec (.read c rs tr h r) s = .next t →
    (∀ ch n, s.dmaChan = some ch →
      dmaWordCount s.params.zeroCountPolicy (dmxRead s (pairIndex ch)) = .ok n →
      ∀ b, (∀ k < n, b / 2 ≠
          (dmxRead s (addrIndex (pairIndex ch)) + BitVec.ofNat 16 k).toNat) →
        t.mem.readByte b = s.mem.readByte b) ∧
    (s.openUnit = none ∨ s.dmaChan = none → ∀ b, t.mem.readByte b = s.mem.readByte b))

/-- R37: the event history is append-only: an order adds at most two events and changes none. -/
def Obligations.EventsOnlyAppended : Prop :=
  ∀ (i : Instr) (s t : State), exec i s = .next t →
    ∃ es : List Event, t.events = s.events ++ es ∧ es.length ≤ 2

/-! ### Fatal conditions and the end of a program -/

/-- R201, R29: raising a fatal condition makes the controller `Faulted` with the reason and changes
nothing else; in a faulted state no further step is enabled, however many are asked for, so the call
never returns and no success is signalled; the machine answers the reason. -/
def Obligations.FaultedIsNeverLeft : Prop :=
  (∀ (s : State) (r : Fault), raise r s = { s with run := .faulted r }) ∧
  ∀ (s : State) (r : Fault) (n : Nat), s.run = .faulted r →
    step s = .fault r ∧ core.run (n + 1) s = .fault r

/-- R203, R74: an order that raises a fatal condition changes nothing but `ctl.run`, except that a
ShortRead has appended its `Read` event (and a conditional order has taken its draw). -/
def Obligations.FaultingOrderWritesNothing : Prop :=
  ∀ (i : Instr) (s t : State) (r : Fault), s.run = .running → exec i s = .next t →
    t.run = .faulted r →
    t = { afterCond i.cond s with run := .faulted r } ∨
    ∃ u off n, r = .shortRead u off n ∧
      t = { afterCond i.cond s with
        events := s.events ++ [.readBytes u off n], run := .faulted r }

/-- R105, R128, R103; that the next state of the Halt's own step is the one after the signal is the
model's choice (log entry 10, DESIGN CHOICE): a channel program ends only at an executed Halt or at a
fatal condition; and a step of a running interpreter gives the CPU the success signal only at an executed
Halt, where it gives it once. -/
def Obligations.OnlyHaltEndsAndSignals : Prop :=
  ∀ s t : State, s.run = .running → step s = .next t →
    (t.run = .idle → ∃ c, fetch s = .ok (.halt c) ∧ condHolds c s = true ∧
      t = successSkip { afterCond c s with run := .idle }) ∧
    (t.run ≠ .idle → t.keys = s.keys ∧ t.pc = s.pc)

/-- R104: the success signal sets the condition-code bit in the one mode and advances the program
counter by one word in the other; nothing else changes. That a program counter of 0xFFFF wraps rests on
the width the model gives it (log entry 20, DEDUCED, unsafe at the wrap). -/
def Obligations.SuccessSkipResult : Prop :=
  ∀ s : State,
    (s.keys &&& s.params.skipModeMask ≠ 0 →
      successSkip s = { s with keys := s.keys ||| s.params.skipCcMask }) ∧
    (s.keys &&& s.params.skipModeMask = 0 → successSkip s = { s with pc := s.pc + 1 })

/-- R205, R140: the status changes, while a program runs, only at a SelectUnit or at a Read with no
file open; and a not-ready status, once set, stays set until a SelectUnit opens a file under
`NR_CLEAR_ON_SELECT` (R242). -/
def Obligations.NotReadyCausesAndSticks : Prop :=
  ∀ s t : State, s.run = .running → step s = .next t →
    (t.status ≠ s.status → (∃ c f, fetch s = .ok (.selUnit c f)) ∨
      ((∃ c rs tr h r, fetch s = .ok (.read c rs tr h r)) ∧ s.openUnit = none)) ∧
    (s.status &&& s.params.notReadyMask = s.params.notReadyMask →
      t.status &&& s.params.notReadyMask = s.params.notReadyMask ∨
      (s.params.nrClearOnSelect = true ∧ ∃ c f u, fetch s = .ok (.selUnit c f) ∧
        t.openUnit = some u ∧ s.openUnit ≠ some u))

/-! ### Invariants that every step keeps -/

/-- R50: main memory keeps its canonical form and holds nothing at or above `MEM_WORDS`. -/
def Obligations.StepKeepsMemory : Prop :=
  ∀ s t : State, s.MemOk → step s = .next t → t.MemOk

/-- R22, R173: every status bit outside `NOT_READY_MASK` keeps the value it has in `STATUS_RESET`, in
every controller instance. -/
def Obligations.StepKeepsStatus : Prop :=
  ∀ s t : State, s.StatusOk → step s = .next t → t.StatusOk

/-- R24, R25: in every controller instance the selected unit is the open unit whenever a file is open,
and under `UNIT_FIELD_POLICY = fault` both are indices 0 to 3. -/
def Obligations.StepKeepsUnits : Prop :=
  ∀ s t : State, s.SelectionOk → s.UnitsOk → step s = .next t → t.SelectionOk ∧ t.UnitsOk

/-- R64, R37: one file at most is open per controller instance at any time: the event history never opens
a second file, and never closes or reads a file that is not the open one, and the file it leaves open is
`ctl.openUnit`. -/
def Obligations.StepKeepsOneOpenFile : Prop :=
  ∀ s t : State, s.HistoryOk → step s = .next t → t.HistoryOk

/-- R109, R107, R29: there is at most one controller instance at a device address, and none but the one
in hand is ever other than idle, so that no two channel programs run at once (log entry 24, DESIGN
CHOICE; a construction at the address of an instance that exists replaces it, log entry 11, DESIGN
CHOICE). -/
def Obligations.StepKeepsInstances : Prop :=
  ∀ s t : State, s.InstancesOk → step s = .next t → t.InstancesOk

/-- The five invariants hold at reset. -/
def Obligations.ResetMeetsInvariants : Prop :=
  State.reset.MemOk ∧ State.reset.StatusOk ∧ State.reset.SelectionOk ∧ State.reset.UnitsOk ∧
  State.reset.HistoryOk ∧ State.reset.InstancesOk ∧ State.reset.params.WellFormed

/-- R8, R43: no step changes a parameter (that the state carries them is log entry 5, DESIGN CHOICE); and
while a channel program runs no step changes the backing store, the accumulator, the pending inputs,
another controller instance, which instance runs or whether it exists, or the console and the control
panel (R60, R32, R14, R109). -/
def Obligations.StepKeepsConfiguration : Prop :=
  ∀ s t : State, step s = .next t → t.params = s.params ∧
    (s.run = .running → t.store = s.store ∧ t.acc = s.acc ∧ t.inputs = s.inputs ∧
      t.others = s.others ∧ t.dev = s.dev ∧ t.live = s.live ∧
      t.consoleIn = s.consoleIn ∧ t.consoleOut = s.consoleOut ∧ t.panel = s.panel)

/-- R14, R71: nothing interleaves with a channel program: a step of a running interpreter does not
depend on what the CPU and the host do next, nor on the accumulator. -/
def Obligations.RunningStepIgnoresInputs : Prop :=
  ∀ (s t : State) (xs : List Input) (a : Word), s.run = .running → step s = .next t →
    step { s with inputs := xs, acc := a } = .next { t with inputs := xs, acc := a }

/-! ### The dispatch contract, reset and the host -/

/-- R102, R42, R234, R109: a load-OAR call to the instance in hand sets the OAR from the accumulator and
starts the interpreter, and leaves every other piece of state as the previous program left it. A
load-OAR call to another instance does that to the addressed instance only: its other fields are as it
left them, every other instance that exists keeps its state, and the shared state is untouched. That the
addressed instance is taken in hand is log entry 24 (DESIGN CHOICE). -/
def Obligations.LoadOarStartsAProgram : Prop :=
  (∀ (s : State) (rest : List Input), s.run = .idle → s.live = true →
    s.inputs = .call .output s.params.loadOarFn s.dev :: rest →
    step s = .next { s with inputs := rest, oar := s.acc, run := .running }) ∧
  ∀ (s : State) (rest : List Input) (dev : Nat) (c : Controller), s.run = .idle →
    s.inputs = .call .output s.params.loadOarFn dev :: rest →
    (dev ≠ s.dev ∨ s.live = false) → s.others.find? (fun d => d.dev == dev) = some c →
    ∃ t, step s = .next t ∧ inHand t = { c with oar := s.acc, run := .running } ∧
      t.live = true ∧ (∀ d, d ∈ t.others ↔ d ∈ allInstances s ∧ d.dev ≠ dev) ∧
      t = { takeInHand (inHand t) s with inputs := rest, live := true, others := t.others }

/-- R106: every other call to a controller instance (a class other than output, or another function)
raises F3 with the class, the function and the device, signals no success and changes nothing else but
that the addressed instance is in hand (log entry 24, DESIGN CHOICE). -/
def Obligations.OtherDiskCallsAreFatal : Prop :=
  ∀ (s u : State) (rest : List Input) (cls : IoClass) (fn dev : Nat), s.run = .idle →
    s.inputs = .call cls fn dev :: rest → address dev { s with inputs := rest } = some u →
    (cls ≠ .output ∨ fn ≠ s.params.loadOarFn) →
    step s = .next { u with run := .faulted (.unsupportedFunction cls fn dev) }

/-- R108: there is no class outside 0 to 3; and a call to a device address of no controller instance,
that the registry maps to no handler or to the generic-null one, raises F3 and changes nothing else. The
model's choices: the fault stands in the run state of the instance in hand, also of a destroyed one (log
entry 30, DESIGN CHOICE, safe), and the address of a destroyed instance is one the registry answers (log
entry 11, DESIGN CHOICE, unsafe after a teardown). -/
def Obligations.UnhandledDeviceIsFatal : Prop :=
  (∀ cls : IoClass, cls = .control ∨ cls = .statusTest ∨ cls = .input ∨ cls = .output) ∧
  ∀ (s : State) (rest : List Input) (cls : IoClass) (fn dev : Nat), s.run = .idle →
    s.inputs = .call cls fn dev :: rest → address dev s = none →
    (handlerAt s dev = none ∨ handlerAt s dev = some .genericNull) →
    step s = .next { s with
      inputs := rest, run := .faulted (.unsupportedFunction cls fn dev) }

/-- R101, R218, R219: the four classes of a recognized call to the console; what the spec leaves open of
them is opaque (log entry 27, DESIGN CHOICE). That a console function does no more than its class and
interface rule say is log entry 12 (DEDUCED, unsafe), and no rule's. A class 2 call that blocks is
completed by the next character typed, and with none to come it stays at its call (log entry 28, DEDUCED);
an input character has 8 bits (log entry 28, DESIGN CHOICE). The address of a destroyed instance is one the
registry answers (log entry 11, DESIGN CHOICE, unsafe after a teardown). -/
def Obligations.ConsoleResult : Prop :=
  ∀ (s : State) (rest : List Input) (cls : IoClass) (fn dev : Nat), s.run = .idle →
    s.inputs = .call cls fn dev :: rest → address dev s = none →
    handlerAt s dev = some .console → recognizes s .console cls fn = true →
    (cls = .control → step s = .next (signalIf (controlSignals .console fn)
      { s with inputs := rest, consoleIn := controlInput fn s.consoleIn })) ∧
    (cls = .statusTest → step s = .next (if s.consoleIn = [] then { s with inputs := rest }
      else successSkip { s with inputs := rest })) ∧
    (cls = .output → step s = .next (successSkip
      { s with inputs := rest, consoleOut := s.consoleOut ++ [outputChar s.acc] })) ∧
    (cls = .input → ∀ b bs, s.consoleIn = b :: bs → step s = .next (successSkip
      { s with
        inputs := rest, consoleIn := bs
        acc := if orsInto .console fn then s.acc ||| inputWord b else inputWord b })) ∧
    (cls = .input → s.consoleIn = [] → step s = .next
      (if blocks s then
        match takeKey rest with
        | some (b, rest') => successSkip
          { s with
            inputs := rest'
            acc := if orsInto .console fn then s.acc ||| inputWord b else inputWord b }
        | none => s
      else
        match emptyRead s.draws with
        | some v => successSkip
          { s with
            inputs := rest, draws := s.draws + 1
            acc := if orsInto .console fn then s.acc ||| v else v }
        | none =>
          { s with
            inputs := rest, draws := s.draws + 1
            acc := emptyReadAcc s.draws s.acc }))

/-- R101, R220: a recognized call to the tape fails, signalling no success; one to the control panel
gives its fixed answer; what the spec leaves open of them is opaque (log entry 27, DESIGN CHOICE). A call
to one of these devices, or to the console, with a function it does not recognize raises F3 and changes
nothing else. That no class of the tape succeeds is log entry 29 (DEDUCED), that a device does no more
than its class says log entry 12 (DEDUCED), where the fault is recorded log entry 30 (DESIGN CHOICE),
that the registry answers the address of a destroyed instance log entry 11 (DESIGN CHOICE, unsafe). -/
def Obligations.TapeAndPanelResult : Prop :=
  ∀ (s : State) (rest : List Input) (cls : IoClass) (fn dev : Nat), s.run = .idle →
    s.inputs = .call cls fn dev :: rest → address dev s = none →
    (handlerAt s dev = some .tape → recognizes s .tape cls fn = true →
      step s = .next { s with
        inputs := rest, acc := if cls = .input then tapeInput fn s.acc else s.acc }) ∧
    (handlerAt s dev = some .controlPanel → recognizes s .controlPanel cls fn = true →
      step s = .next (match cls with
        | .control => signalIf (controlSignals .controlPanel fn)
          { s with inputs := rest, panel := controlPanelWord fn s.panel }
        | .statusTest => signalIf (panelReady fn) { s with inputs := rest }
        | .input => successSkip { s with
          inputs := rest
          acc := if orsInto .controlPanel fn then s.acc ||| panelValue fn else panelValue fn }
        | .output => successSkip { s with inputs := rest, panel := s.acc })) ∧
    ∀ h, handlerAt s dev = some h → recognizes s h cls fn = false →
      step s = .next { s with
        inputs := rest, run := .faulted (.unsupportedFunction cls fn dev) }

/-- R41, R109, R230, R232: the construction of a controller at a device address gives an instance with
its fields at their reset values (`oar` and `dmaNch`, unspecified in the rule, are left out here) and
touches neither another instance nor the shared state. The model's choices: a construction at the address
of an instance that exists replaces it, with no close of its open file recorded (log entry 11, DESIGN
CHOICE), and the new instance is in hand afterwards (log entry 24, DESIGN CHOICE). -/
def Obligations.ConstructResets : Prop :=
  ∀ (s : State) (rest : List Input) (dev : Nat), s.run = .idle →
    s.inputs = .construct dev :: rest →
    ∃ t, step s = .next t ∧ t.dev = dev ∧ t.live = true ∧ t.status = s.params.statusReset ∧
      t.selUnit = none ∧ t.openUnit = none ∧ t.dmaChan = none ∧ t.run = .idle ∧ t.events = [] ∧
      (∀ d, d ∈ t.others ↔ d ∈ allInstances s ∧ d.dev ≠ dev) ∧
      t = { takeInHand (inHand t) s with inputs := rest, live := true, others := t.others }

/-- R41, R230: the state at reset, in the fields whose values the rules give (`oar` and `dmaNch` are
unspecified there): ready, no unit selected, no file open, no channel selected, idle, no event; and
while nothing is pending an idle machine does nothing (R231; log entry 9). -/
def Obligations.ResetState : Prop :=
  (State.reset.status = 0x0000 ∧ State.reset.selUnit = none ∧ State.reset.openUnit = none ∧
    State.reset.dmaChan = none ∧ State.reset.run = .idle ∧ State.reset.events = []) ∧
  step State.reset = .next State.reset ∧
  ∀ s : State, s.run = .idle → s.inputs = [] → step s = .next s

/-- R233: teardown of an instance closes its open file, if there is one, and changes nothing else of its
fields, of another instance or of the shared state but that the instance is gone, which is the model's
field `live`, and that it was taken in hand (log entries 11 and 24, DESIGN CHOICE). -/
def Obligations.TeardownClosesTheFile : Prop :=
  ∀ (s u : State) (rest : List Input) (dev : Nat), s.run = .idle →
    s.inputs = .teardown dev :: rest → address dev { s with inputs := rest } = some u →
    step s = .next { u with
      openUnit := none
      events := u.events ++ u.openUnit.toList.map Event.closed
      live := false }
end

