-- ==== Sys2Proof/Laws/Decode.lean ====
section
/-! SUPPORT. The laws of slots, fields and codes: a field reads what was put into it, putting another
field, the code or the flag leaves it alone, and a code of its own names its kind. -/

namespace Sys2Proof

open Sys2Proof.Config

/-! ### Words of a slot -/

@[simp] theorem word_setWord (s : Slot) (k j : Fin 3) (v : Word) :
    (s.setWord k v).word j = if j = k then v else s.word j := by
  fin_cases k <;> fin_cases j <;> rfl

@[simp] theorem word_put (s : Slot) {n : Nat} (p : FieldPos) (v : BitVec n) (j : Fin 3) :
    (s.put p v).word j =
      if j = p.word then s.word p.word ||| (v.setWidth 16 <<< p.lo) else s.word j := by
  simp [Slot.put]

theorem w0_eq_word (s : Slot) : s.w0 = s.word 0 := rfl

/-! ### Fields -/

/-- The bits of a field. -/
theorem getLsbD_field (s : Slot) (p : FieldPos) (n i : Nat) :
    (s.field p n).getLsbD i = (decide (i < n) && (s.word p.word).getLsbD (p.lo + i)) := by
  simp [Slot.field, BitVec.getLsbD_extractLsb']

/-- A field that was 0 reads what was put into it. -/
theorem field_put_self (s : Slot) {n size : Nat} (p : FieldPos) (v : BitVec n)
    (hf : p.Fits n size) (h0 : s.field p n = 0) : (s.put p v).field p n = v := by
  apply BitVec.eq_of_getLsbD_eq
  intro i hi
  have hlt : p.lo + i < 16 := by
    have := hf.2
    split at this <;> omega
  have hz : (s.word p.word).getLsbD (p.lo + i) = false := by
    have h := getLsbD_field s p n i
    rw [h0] at h
    simpa [hi] using h.symm
  have h16 : i < 16 := by omega
  rw [getLsbD_field, word_put, if_pos rfl]
  simp only [BitVec.getLsbD_or, BitVec.getLsbD_shiftLeft, BitVec.getLsbD_setWidth, hz]
  simp [hi, hlt, h16]

/-- Putting a field leaves a field apart from it alone. -/
theorem field_put_apart (s : Slot) {n m : Nat} (p q : FieldPos) (v : BitVec n)
    (h : p.Apart n q m) : (s.put p v).field q m = s.field q m := by
  apply BitVec.eq_of_getLsbD_eq
  intro i hi
  simp only [getLsbD_field, word_put, hi, decide_true, Bool.true_and]
  split
  · rename_i hw
    have h' : p.lo + n ≤ q.lo ∨ q.lo + m ≤ p.lo := by
      rcases h with h | h
      · exact absurd hw.symm h
      · exact h
    rw [hw, BitVec.getLsbD_or]
    suffices hz : (v.setWidth 16 <<< p.lo).getLsbD (q.lo + i) = false by simp [hz]
    rw [BitVec.getLsbD_shiftLeft]
    rcases h' with h' | h'
    · have : v.getLsbD (q.lo + i - p.lo) = false := BitVec.getLsbD_of_ge _ _ (by omega)
      simp [this]
    · have : q.lo + i < p.lo := by omega
      simp [this]
  · rfl

theorem apart_symm {p q : FieldPos} {n m : Nat} (h : p.Apart n q m) : q.Apart m p n := by
  rcases h with h | h | h
  · exact .inl (Ne.symm h)
  · exact .inr (.inr h)
  · exact .inr (.inl h)

/-! ### The code and the flag -/

/-- Putting a field that fits changes no bit of `w0` from bit 11 up. -/
theorem w0_put_high (s : Slot) {n size : Nat} (p : FieldPos) (v : BitVec n)
    (hf : p.Fits n size) (i : Nat) (hi : 11 ≤ i) :
    (s.put p v).w0.getLsbD i = s.w0.getLsbD i := by
  rw [w0_eq_word, w0_eq_word, word_put]
  split
  · rename_i hw
    have hlo := hf.2
    rw [if_pos hw.symm] at hlo
    rw [← hw, BitVec.getLsbD_or, BitVec.getLsbD_shiftLeft, BitVec.getLsbD_setWidth]
    have : v.getLsbD (i - p.lo) = false := BitVec.getLsbD_of_ge _ _ (by omega)
    simp [this]
  · rfl

theorem codeField_put (s : Slot) {n size : Nat} (p : FieldPos) (v : BitVec n)
    (hf : p.Fits n size) : codeField (s.put p v).w0 = codeField s.w0 := by
  apply BitVec.eq_of_getLsbD_eq
  intro i hi
  simp only [codeField, BitVec.getLsbD_extractLsb']
  rw [w0_put_high s p v hf _ (by omega)]

theorem condFlag_put (s : Slot) {n size : Nat} (p : FieldPos) (v : BitVec n)
    (hf : p.Fits n size) : condFlag (s.put p v).w0 = condFlag s.w0 :=
  w0_put_high s p v hf 11 (by omega)

@[simp] theorem codeField_baseSlot (code : BitVec 4) (c : Bool) :
    codeField (baseSlot code c).w0 = code := by
  revert code c; decide

@[simp] theorem condFlag_baseSlot (code : BitVec 4) (c : Bool) :
    condFlag (baseSlot code c).w0 = c := by
  revert code c; decide

/-- Every field that fits reads 0 in a slot that holds a code and a flag only. -/
theorem field_baseSlot (code : BitVec 4) (c : Bool) {n size : Nat} (p : FieldPos)
    (hf : p.Fits n size) : (baseSlot code c).field p n = 0 := by
  apply BitVec.eq_of_getLsbD_eq
  intro i hi
  rw [getLsbD_field]
  have hlow : ∀ j < 11, (baseSlot code c).w0.getLsbD j = false := by
    revert code c; decide
  have hw : ((baseSlot code c).word p.word).getLsbD (p.lo + i) = false := by
    have hlo := hf.2
    rcases hp : p.word with ⟨k, hk⟩
    match k, hk with
    | 0, _ =>
      rw [hp] at hlo
      simp only [Fin.zero_eta, if_true] at hlo
      exact hlow _ (by omega)
    | 1, _ => simp [Slot.word, baseSlot]
    | 2, _ => simp [Slot.word, baseSlot]
  simp [hw]

/-- Under an injective `ORDER_CODE`, a kind's code names the kind (R93, R120). -/
theorem kindOf_codeOf (m : OrderCode) (h : m.WellFormed) (k : OrderKind) :
    kindOf m (m.codeOf k) = some k := by
  simp only [OrderCode.WellFormed, OrderKind.all, List.map_cons, List.map_nil, List.nodup_cons,
    List.mem_cons, List.not_mem_nil, or_false, not_or] at h
  cases k <;> simp_all [kindOf, OrderKind.all, Ne.symm]

end Sys2Proof
end

