-- ==== Sys2Proof/Laws/State.lean ====
section
/-! SUPPORT. The small lemmas of the state's updates: for every shared operation that changes the
state, what each field of the result is. Later proofs rewrite with these and unfold no update. -/

namespace Sys2Proof.Machine

open Sys2Proof.Config

/-! ### raise -/

@[simp] theorem raise_dev (r : Fault) (s : State) :
    (raise r s).dev = s.dev := rfl
@[simp] theorem raise_oar (r : Fault) (s : State) :
    (raise r s).oar = s.oar := rfl
@[simp] theorem raise_status (r : Fault) (s : State) :
    (raise r s).status = s.status := rfl
@[simp] theorem raise_selUnit (r : Fault) (s : State) :
    (raise r s).selUnit = s.selUnit := rfl
@[simp] theorem raise_openUnit (r : Fault) (s : State) :
    (raise r s).openUnit = s.openUnit := rfl
@[simp] theorem raise_dmaChan (r : Fault) (s : State) :
    (raise r s).dmaChan = s.dmaChan := rfl
@[simp] theorem raise_dmaNch (r : Fault) (s : State) :
    (raise r s).dmaNch = s.dmaNch := rfl
@[simp] theorem raise_run (r : Fault) (s : State) :
    (raise r s).run = .faulted r := rfl
@[simp] theorem raise_events (r : Fault) (s : State) :
    (raise r s).events = s.events := rfl
@[simp] theorem raise_others (r : Fault) (s : State) :
    (raise r s).others = s.others := rfl
@[simp] theorem raise_dmx (r : Fault) (s : State) :
    (raise r s).dmx = s.dmx := rfl
@[simp] theorem raise_acc (r : Fault) (s : State) :
    (raise r s).acc = s.acc := rfl
@[simp] theorem raise_keys (r : Fault) (s : State) :
    (raise r s).keys = s.keys := rfl
@[simp] theorem raise_pc (r : Fault) (s : State) :
    (raise r s).pc = s.pc := rfl
@[simp] theorem raise_mem (r : Fault) (s : State) :
    (raise r s).mem = s.mem := rfl
@[simp] theorem raise_store (r : Fault) (s : State) :
    (raise r s).store = s.store := rfl
@[simp] theorem raise_consoleIn (r : Fault) (s : State) :
    (raise r s).consoleIn = s.consoleIn := rfl
@[simp] theorem raise_consoleOut (r : Fault) (s : State) :
    (raise r s).consoleOut = s.consoleOut := rfl
@[simp] theorem raise_panel (r : Fault) (s : State) :
    (raise r s).panel = s.panel := rfl
@[simp] theorem raise_params (r : Fault) (s : State) :
    (raise r s).params = s.params := rfl
@[simp] theorem raise_draws (r : Fault) (s : State) :
    (raise r s).draws = s.draws := rfl
@[simp] theorem raise_inputs (r : Fault) (s : State) :
    (raise r s).inputs = s.inputs := rfl
@[simp] theorem raise_live (r : Fault) (s : State) :
    (raise r s).live = s.live := rfl

/-! ### advance -/

@[simp] theorem advance_dev (k : OrderKind) (s : State) :
    (advance k s).dev = s.dev := rfl
@[simp] theorem advance_oar (k : OrderKind) (s : State) :
    (advance k s).oar = s.oar + BitVec.ofNat 16 k.size := rfl
@[simp] theorem advance_status (k : OrderKind) (s : State) :
    (advance k s).status = s.status := rfl
@[simp] theorem advance_selUnit (k : OrderKind) (s : State) :
    (advance k s).selUnit = s.selUnit := rfl
@[simp] theorem advance_openUnit (k : OrderKind) (s : State) :
    (advance k s).openUnit = s.openUnit := rfl
@[simp] theorem advance_dmaChan (k : OrderKind) (s : State) :
    (advance k s).dmaChan = s.dmaChan := rfl
@[simp] theorem advance_dmaNch (k : OrderKind) (s : State) :
    (advance k s).dmaNch = s.dmaNch := rfl
@[simp] theorem advance_run (k : OrderKind) (s : State) :
    (advance k s).run = s.run := rfl
@[simp] theorem advance_events (k : OrderKind) (s : State) :
    (advance k s).events = s.events := rfl
@[simp] theorem advance_others (k : OrderKind) (s : State) :
    (advance k s).others = s.others := rfl
@[simp] theorem advance_dmx (k : OrderKind) (s : State) :
    (advance k s).dmx = s.dmx := rfl
@[simp] theorem advance_acc (k : OrderKind) (s : State) :
    (advance k s).acc = s.acc := rfl
@[simp] theorem advance_keys (k : OrderKind) (s : State) :
    (advance k s).keys = s.keys := rfl
@[simp] theorem advance_pc (k : OrderKind) (s : State) :
    (advance k s).pc = s.pc := rfl
@[simp] theorem advance_mem (k : OrderKind) (s : State) :
    (advance k s).mem = s.mem := rfl
@[simp] theorem advance_store (k : OrderKind) (s : State) :
    (advance k s).store = s.store := rfl
@[simp] theorem advance_consoleIn (k : OrderKind) (s : State) :
    (advance k s).consoleIn = s.consoleIn := rfl
@[simp] theorem advance_consoleOut (k : OrderKind) (s : State) :
    (advance k s).consoleOut = s.consoleOut := rfl
@[simp] theorem advance_panel (k : OrderKind) (s : State) :
    (advance k s).panel = s.panel := rfl
@[simp] theorem advance_params (k : OrderKind) (s : State) :
    (advance k s).params = s.params := rfl
@[simp] theorem advance_draws (k : OrderKind) (s : State) :
    (advance k s).draws = s.draws := rfl
@[simp] theorem advance_inputs (k : OrderKind) (s : State) :
    (advance k s).inputs = s.inputs := rfl
@[simp] theorem advance_live (k : OrderKind) (s : State) :
    (advance k s).live = s.live := rfl

/-! ### setNotReady -/

@[simp] theorem setNotReady_dev (s : State) :
    (setNotReady s).dev = s.dev := rfl
@[simp] theorem setNotReady_oar (s : State) :
    (setNotReady s).oar = s.oar := rfl
@[simp] theorem setNotReady_status (s : State) :
    (setNotReady s).status = s.status ||| s.params.notReadyMask := rfl
@[simp] theorem setNotReady_selUnit (s : State) :
    (setNotReady s).selUnit = s.selUnit := rfl
@[simp] theorem setNotReady_openUnit (s : State) :
    (setNotReady s).openUnit = s.openUnit := rfl
@[simp] theorem setNotReady_dmaChan (s : State) :
    (setNotReady s).dmaChan = s.dmaChan := rfl
@[simp] theorem setNotReady_dmaNch (s : State) :
    (setNotReady s).dmaNch = s.dmaNch := rfl
@[simp] theorem setNotReady_run (s : State) :
    (setNotReady s).run = s.run := rfl
@[simp] theorem setNotReady_events (s : State) :
    (setNotReady s).events = s.events := rfl
@[simp] theorem setNotReady_others (s : State) :
    (setNotReady s).others = s.others := rfl
@[simp] theorem setNotReady_dmx (s : State) :
    (setNotReady s).dmx = s.dmx := rfl
@[simp] theorem setNotReady_acc (s : State) :
    (setNotReady s).acc = s.acc := rfl
@[simp] theorem setNotReady_keys (s : State) :
    (setNotReady s).keys = s.keys := rfl
@[simp] theorem setNotReady_pc (s : State) :
    (setNotReady s).pc = s.pc := rfl
@[simp] theorem setNotReady_mem (s : State) :
    (setNotReady s).mem = s.mem := rfl
@[simp] theorem setNotReady_store (s : State) :
    (setNotReady s).store = s.store := rfl
@[simp] theorem setNotReady_consoleIn (s : State) :
    (setNotReady s).consoleIn = s.consoleIn := rfl
@[simp] theorem setNotReady_consoleOut (s : State) :
    (setNotReady s).consoleOut = s.consoleOut := rfl
@[simp] theorem setNotReady_panel (s : State) :
    (setNotReady s).panel = s.panel := rfl
@[simp] theorem setNotReady_params (s : State) :
    (setNotReady s).params = s.params := rfl
@[simp] theorem setNotReady_draws (s : State) :
    (setNotReady s).draws = s.draws := rfl
@[simp] theorem setNotReady_inputs (s : State) :
    (setNotReady s).inputs = s.inputs := rfl
@[simp] theorem setNotReady_live (s : State) :
    (setNotReady s).live = s.live := rfl

/-! ### clearNotReady -/

@[simp] theorem clearNotReady_dev (s : State) :
    (clearNotReady s).dev = s.dev := rfl
@[simp] theorem clearNotReady_oar (s : State) :
    (clearNotReady s).oar = s.oar := rfl
@[simp] theorem clearNotReady_status (s : State) :
    (clearNotReady s).status = s.status &&& ~~~s.params.notReadyMask := rfl
@[simp] theorem clearNotReady_selUnit (s : State) :
    (clearNotReady s).selUnit = s.selUnit := rfl
@[simp] theorem clearNotReady_openUnit (s : State) :
    (clearNotReady s).openUnit = s.openUnit := rfl
@[simp] theorem clearNotReady_dmaChan (s : State) :
    (clearNotReady s).dmaChan = s.dmaChan := rfl
@[simp] theorem clearNotReady_dmaNch (s : State) :
    (clearNotReady s).dmaNch = s.dmaNch := rfl
@[simp] theorem clearNotReady_run (s : State) :
    (clearNotReady s).run = s.run := rfl
@[simp] theorem clearNotReady_events (s : State) :
    (clearNotReady s).events = s.events := rfl
@[simp] theorem clearNotReady_others (s : State) :
    (clearNotReady s).others = s.others := rfl
@[simp] theorem clearNotReady_dmx (s : State) :
    (clearNotReady s).dmx = s.dmx := rfl
@[simp] theorem clearNotReady_acc (s : State) :
    (clearNotReady s).acc = s.acc := rfl
@[simp] theorem clearNotReady_keys (s : State) :
    (clearNotReady s).keys = s.keys := rfl
@[simp] theorem clearNotReady_pc (s : State) :
    (clearNotReady s).pc = s.pc := rfl
@[simp] theorem clearNotReady_mem (s : State) :
    (clearNotReady s).mem = s.mem := rfl
@[simp] theorem clearNotReady_store (s : State) :
    (clearNotReady s).store = s.store := rfl
@[simp] theorem clearNotReady_consoleIn (s : State) :
    (clearNotReady s).consoleIn = s.consoleIn := rfl
@[simp] theorem clearNotReady_consoleOut (s : State) :
    (clearNotReady s).consoleOut = s.consoleOut := rfl
@[simp] theorem clearNotReady_panel (s : State) :
    (clearNotReady s).panel = s.panel := rfl
@[simp] theorem clearNotReady_params (s : State) :
    (clearNotReady s).params = s.params := rfl
@[simp] theorem clearNotReady_draws (s : State) :
    (clearNotReady s).draws = s.draws := rfl
@[simp] theorem clearNotReady_inputs (s : State) :
    (clearNotReady s).inputs = s.inputs := rfl
@[simp] theorem clearNotReady_live (s : State) :
    (clearNotReady s).live = s.live := rfl

/-! ### dmxWrite -/

@[simp] theorem dmxWrite_dev (i : Fin 64) (v : Word) (s : State) :
    (dmxWrite i v s).dev = s.dev := rfl
@[simp] theorem dmxWrite_oar (i : Fin 64) (v : Word) (s : State) :
    (dmxWrite i v s).oar = s.oar := rfl
@[simp] theorem dmxWrite_status (i : Fin 64) (v : Word) (s : State) :
    (dmxWrite i v s).status = s.status := rfl
@[simp] theorem dmxWrite_selUnit (i : Fin 64) (v : Word) (s : State) :
    (dmxWrite i v s).selUnit = s.selUnit := rfl
@[simp] theorem dmxWrite_openUnit (i : Fin 64) (v : Word) (s : State) :
    (dmxWrite i v s).openUnit = s.openUnit := rfl
@[simp] theorem dmxWrite_dmaChan (i : Fin 64) (v : Word) (s : State) :
    (dmxWrite i v s).dmaChan = s.dmaChan := rfl
@[simp] theorem dmxWrite_dmaNch (i : Fin 64) (v : Word) (s : State) :
    (dmxWrite i v s).dmaNch = s.dmaNch := rfl
@[simp] theorem dmxWrite_run (i : Fin 64) (v : Word) (s : State) :
    (dmxWrite i v s).run = s.run := rfl
@[simp] theorem dmxWrite_events (i : Fin 64) (v : Word) (s : State) :
    (dmxWrite i v s).events = s.events := rfl
@[simp] theorem dmxWrite_others (i : Fin 64) (v : Word) (s : State) :
    (dmxWrite i v s).others = s.others := rfl
@[simp] theorem dmxWrite_dmx (i : Fin 64) (v : Word) (s : State) :
    (dmxWrite i v s).dmx = s.dmx.set i v := rfl
@[simp] theorem dmxWrite_acc (i : Fin 64) (v : Word) (s : State) :
    (dmxWrite i v s).acc = s.acc := rfl
@[simp] theorem dmxWrite_keys (i : Fin 64) (v : Word) (s : State) :
    (dmxWrite i v s).keys = s.keys := rfl
@[simp] theorem dmxWrite_pc (i : Fin 64) (v : Word) (s : State) :
    (dmxWrite i v s).pc = s.pc := rfl
@[simp] theorem dmxWrite_mem (i : Fin 64) (v : Word) (s : State) :
    (dmxWrite i v s).mem = s.mem := rfl
@[simp] theorem dmxWrite_store (i : Fin 64) (v : Word) (s : State) :
    (dmxWrite i v s).store = s.store := rfl
@[simp] theorem dmxWrite_consoleIn (i : Fin 64) (v : Word) (s : State) :
    (dmxWrite i v s).consoleIn = s.consoleIn := rfl
@[simp] theorem dmxWrite_consoleOut (i : Fin 64) (v : Word) (s : State) :
    (dmxWrite i v s).consoleOut = s.consoleOut := rfl
@[simp] theorem dmxWrite_panel (i : Fin 64) (v : Word) (s : State) :
    (dmxWrite i v s).panel = s.panel := rfl
@[simp] theorem dmxWrite_params (i : Fin 64) (v : Word) (s : State) :
    (dmxWrite i v s).params = s.params := rfl
@[simp] theorem dmxWrite_draws (i : Fin 64) (v : Word) (s : State) :
    (dmxWrite i v s).draws = s.draws := rfl
@[simp] theorem dmxWrite_inputs (i : Fin 64) (v : Word) (s : State) :
    (dmxWrite i v s).inputs = s.inputs := rfl
@[simp] theorem dmxWrite_live (i : Fin 64) (v : Word) (s : State) :
    (dmxWrite i v s).live = s.live := rfl

/-! ### appendEvent -/

@[simp] theorem appendEvent_dev (e : Event) (s : State) :
    (appendEvent e s).dev = s.dev := rfl
@[simp] theorem appendEvent_oar (e : Event) (s : State) :
    (appendEvent e s).oar = s.oar := rfl
@[simp] theorem appendEvent_status (e : Event) (s : State) :
    (appendEvent e s).status = s.status := rfl
@[simp] theorem appendEvent_selUnit (e : Event) (s : State) :
    (appendEvent e s).selUnit = s.selUnit := rfl
@[simp] theorem appendEvent_openUnit (e : Event) (s : State) :
    (appendEvent e s).openUnit = s.openUnit := rfl
@[simp] theorem appendEvent_dmaChan (e : Event) (s : State) :
    (appendEvent e s).dmaChan = s.dmaChan := rfl
@[simp] theorem appendEvent_dmaNch (e : Event) (s : State) :
    (appendEvent e s).dmaNch = s.dmaNch := rfl
@[simp] theorem appendEvent_run (e : Event) (s : State) :
    (appendEvent e s).run = s.run := rfl
@[simp] theorem appendEvent_events (e : Event) (s : State) :
    (appendEvent e s).events = s.events ++ [e] := rfl
@[simp] theorem appendEvent_others (e : Event) (s : State) :
    (appendEvent e s).others = s.others := rfl
@[simp] theorem appendEvent_dmx (e : Event) (s : State) :
    (appendEvent e s).dmx = s.dmx := rfl
@[simp] theorem appendEvent_acc (e : Event) (s : State) :
    (appendEvent e s).acc = s.acc := rfl
@[simp] theorem appendEvent_keys (e : Event) (s : State) :
    (appendEvent e s).keys = s.keys := rfl
@[simp] theorem appendEvent_pc (e : Event) (s : State) :
    (appendEvent e s).pc = s.pc := rfl
@[simp] theorem appendEvent_mem (e : Event) (s : State) :
    (appendEvent e s).mem = s.mem := rfl
@[simp] theorem appendEvent_store (e : Event) (s : State) :
    (appendEvent e s).store = s.store := rfl
@[simp] theorem appendEvent_consoleIn (e : Event) (s : State) :
    (appendEvent e s).consoleIn = s.consoleIn := rfl
@[simp] theorem appendEvent_consoleOut (e : Event) (s : State) :
    (appendEvent e s).consoleOut = s.consoleOut := rfl
@[simp] theorem appendEvent_panel (e : Event) (s : State) :
    (appendEvent e s).panel = s.panel := rfl
@[simp] theorem appendEvent_params (e : Event) (s : State) :
    (appendEvent e s).params = s.params := rfl
@[simp] theorem appendEvent_draws (e : Event) (s : State) :
    (appendEvent e s).draws = s.draws := rfl
@[simp] theorem appendEvent_inputs (e : Event) (s : State) :
    (appendEvent e s).inputs = s.inputs := rfl
@[simp] theorem appendEvent_live (e : Event) (s : State) :
    (appendEvent e s).live = s.live := rfl

/-! ### storeClose -/

@[simp] theorem storeClose_dev (u : UnitIndex) (s : State) :
    (storeClose u s).dev = s.dev := rfl
@[simp] theorem storeClose_oar (u : UnitIndex) (s : State) :
    (storeClose u s).oar = s.oar := rfl
@[simp] theorem storeClose_status (u : UnitIndex) (s : State) :
    (storeClose u s).status = s.status := rfl
@[simp] theorem storeClose_selUnit (u : UnitIndex) (s : State) :
    (storeClose u s).selUnit = s.selUnit := rfl
@[simp] theorem storeClose_openUnit (u : UnitIndex) (s : State) :
    (storeClose u s).openUnit = none := rfl
@[simp] theorem storeClose_dmaChan (u : UnitIndex) (s : State) :
    (storeClose u s).dmaChan = s.dmaChan := rfl
@[simp] theorem storeClose_dmaNch (u : UnitIndex) (s : State) :
    (storeClose u s).dmaNch = s.dmaNch := rfl
@[simp] theorem storeClose_run (u : UnitIndex) (s : State) :
    (storeClose u s).run = s.run := rfl
@[simp] theorem storeClose_events (u : UnitIndex) (s : State) :
    (storeClose u s).events = s.events ++ [.closed u] := rfl
@[simp] theorem storeClose_others (u : UnitIndex) (s : State) :
    (storeClose u s).others = s.others := rfl
@[simp] theorem storeClose_dmx (u : UnitIndex) (s : State) :
    (storeClose u s).dmx = s.dmx := rfl
@[simp] theorem storeClose_acc (u : UnitIndex) (s : State) :
    (storeClose u s).acc = s.acc := rfl
@[simp] theorem storeClose_keys (u : UnitIndex) (s : State) :
    (storeClose u s).keys = s.keys := rfl
@[simp] theorem storeClose_pc (u : UnitIndex) (s : State) :
    (storeClose u s).pc = s.pc := rfl
@[simp] theorem storeClose_mem (u : UnitIndex) (s : State) :
    (storeClose u s).mem = s.mem := rfl
@[simp] theorem storeClose_store (u : UnitIndex) (s : State) :
    (storeClose u s).store = s.store := rfl
@[simp] theorem storeClose_consoleIn (u : UnitIndex) (s : State) :
    (storeClose u s).consoleIn = s.consoleIn := rfl
@[simp] theorem storeClose_consoleOut (u : UnitIndex) (s : State) :
    (storeClose u s).consoleOut = s.consoleOut := rfl
@[simp] theorem storeClose_panel (u : UnitIndex) (s : State) :
    (storeClose u s).panel = s.panel := rfl
@[simp] theorem storeClose_params (u : UnitIndex) (s : State) :
    (storeClose u s).params = s.params := rfl
@[simp] theorem storeClose_draws (u : UnitIndex) (s : State) :
    (storeClose u s).draws = s.draws := rfl
@[simp] theorem storeClose_inputs (u : UnitIndex) (s : State) :
    (storeClose u s).inputs = s.inputs := rfl
@[simp] theorem storeClose_live (u : UnitIndex) (s : State) :
    (storeClose u s).live = s.live := rfl

/-! ### selectUnit -/

@[simp] theorem selectUnit_dev (u : UnitIndex) (s : State) :
    (selectUnit u s).dev = s.dev := rfl
@[simp] theorem selectUnit_oar (u : UnitIndex) (s : State) :
    (selectUnit u s).oar = s.oar := rfl
@[simp] theorem selectUnit_status (u : UnitIndex) (s : State) :
    (selectUnit u s).status = s.status := rfl
@[simp] theorem selectUnit_selUnit (u : UnitIndex) (s : State) :
    (selectUnit u s).selUnit = some u := rfl
@[simp] theorem selectUnit_openUnit (u : UnitIndex) (s : State) :
    (selectUnit u s).openUnit = s.openUnit := rfl
@[simp] theorem selectUnit_dmaChan (u : UnitIndex) (s : State) :
    (selectUnit u s).dmaChan = s.dmaChan := rfl
@[simp] theorem selectUnit_dmaNch (u : UnitIndex) (s : State) :
    (selectUnit u s).dmaNch = s.dmaNch := rfl
@[simp] theorem selectUnit_run (u : UnitIndex) (s : State) :
    (selectUnit u s).run = s.run := rfl
@[simp] theorem selectUnit_events (u : UnitIndex) (s : State) :
    (selectUnit u s).events = s.events := rfl
@[simp] theorem selectUnit_others (u : UnitIndex) (s : State) :
    (selectUnit u s).others = s.others := rfl
@[simp] theorem selectUnit_dmx (u : UnitIndex) (s : State) :
    (selectUnit u s).dmx = s.dmx := rfl
@[simp] theorem selectUnit_acc (u : UnitIndex) (s : State) :
    (selectUnit u s).acc = s.acc := rfl
@[simp] theorem selectUnit_keys (u : UnitIndex) (s : State) :
    (selectUnit u s).keys = s.keys := rfl
@[simp] theorem selectUnit_pc (u : UnitIndex) (s : State) :
    (selectUnit u s).pc = s.pc := rfl
@[simp] theorem selectUnit_mem (u : UnitIndex) (s : State) :
    (selectUnit u s).mem = s.mem := rfl
@[simp] theorem selectUnit_store (u : UnitIndex) (s : State) :
    (selectUnit u s).store = s.store := rfl
@[simp] theorem selectUnit_consoleIn (u : UnitIndex) (s : State) :
    (selectUnit u s).consoleIn = s.consoleIn := rfl
@[simp] theorem selectUnit_consoleOut (u : UnitIndex) (s : State) :
    (selectUnit u s).consoleOut = s.consoleOut := rfl
@[simp] theorem selectUnit_panel (u : UnitIndex) (s : State) :
    (selectUnit u s).panel = s.panel := rfl
@[simp] theorem selectUnit_params (u : UnitIndex) (s : State) :
    (selectUnit u s).params = s.params := rfl
@[simp] theorem selectUnit_draws (u : UnitIndex) (s : State) :
    (selectUnit u s).draws = s.draws := rfl
@[simp] theorem selectUnit_inputs (u : UnitIndex) (s : State) :
    (selectUnit u s).inputs = s.inputs := rfl
@[simp] theorem selectUnit_live (u : UnitIndex) (s : State) :
    (selectUnit u s).live = s.live := rfl

/-! ### loadOar -/

@[simp] theorem loadOar_dev (s : State) :
    (loadOar s).dev = s.dev := rfl
@[simp] theorem loadOar_oar (s : State) :
    (loadOar s).oar = s.acc := rfl
@[simp] theorem loadOar_status (s : State) :
    (loadOar s).status = s.status := rfl
@[simp] theorem loadOar_selUnit (s : State) :
    (loadOar s).selUnit = s.selUnit := rfl
@[simp] theorem loadOar_openUnit (s : State) :
    (loadOar s).openUnit = s.openUnit := rfl
@[simp] theorem loadOar_dmaChan (s : State) :
    (loadOar s).dmaChan = s.dmaChan := rfl
@[simp] theorem loadOar_dmaNch (s : State) :
    (loadOar s).dmaNch = s.dmaNch := rfl
@[simp] theorem loadOar_run (s : State) :
    (loadOar s).run = .running := rfl
@[simp] theorem loadOar_events (s : State) :
    (loadOar s).events = s.events := rfl
@[simp] theorem loadOar_others (s : State) :
    (loadOar s).others = s.others := rfl
@[simp] theorem loadOar_dmx (s : State) :
    (loadOar s).dmx = s.dmx := rfl
@[simp] theorem loadOar_acc (s : State) :
    (loadOar s).acc = s.acc := rfl
@[simp] theorem loadOar_keys (s : State) :
    (loadOar s).keys = s.keys := rfl
@[simp] theorem loadOar_pc (s : State) :
    (loadOar s).pc = s.pc := rfl
@[simp] theorem loadOar_mem (s : State) :
    (loadOar s).mem = s.mem := rfl
@[simp] theorem loadOar_store (s : State) :
    (loadOar s).store = s.store := rfl
@[simp] theorem loadOar_consoleIn (s : State) :
    (loadOar s).consoleIn = s.consoleIn := rfl
@[simp] theorem loadOar_consoleOut (s : State) :
    (loadOar s).consoleOut = s.consoleOut := rfl
@[simp] theorem loadOar_panel (s : State) :
    (loadOar s).panel = s.panel := rfl
@[simp] theorem loadOar_params (s : State) :
    (loadOar s).params = s.params := rfl
@[simp] theorem loadOar_draws (s : State) :
    (loadOar s).draws = s.draws := rfl
@[simp] theorem loadOar_inputs (s : State) :
    (loadOar s).inputs = s.inputs := rfl
@[simp] theorem loadOar_live (s : State) :
    (loadOar s).live = s.live := rfl

/-! ### takeInHand -/

@[simp] theorem takeInHand_dev (c : Controller) (s : State) :
    (takeInHand c s).dev = c.dev := rfl
@[simp] theorem takeInHand_oar (c : Controller) (s : State) :
    (takeInHand c s).oar = c.oar := rfl
@[simp] theorem takeInHand_status (c : Controller) (s : State) :
    (takeInHand c s).status = c.status := rfl
@[simp] theorem takeInHand_selUnit (c : Controller) (s : State) :
    (takeInHand c s).selUnit = c.selUnit := rfl
@[simp] theorem takeInHand_openUnit (c : Controller) (s : State) :
    (takeInHand c s).openUnit = c.openUnit := rfl
@[simp] theorem takeInHand_dmaChan (c : Controller) (s : State) :
    (takeInHand c s).dmaChan = c.dmaChan := rfl
@[simp] theorem takeInHand_dmaNch (c : Controller) (s : State) :
    (takeInHand c s).dmaNch = c.dmaNch := rfl
@[simp] theorem takeInHand_run (c : Controller) (s : State) :
    (takeInHand c s).run = c.run := rfl
@[simp] theorem takeInHand_events (c : Controller) (s : State) :
    (takeInHand c s).events = c.events := rfl
@[simp] theorem takeInHand_others (c : Controller) (s : State) :
    (takeInHand c s).others = s.others := rfl
@[simp] theorem takeInHand_dmx (c : Controller) (s : State) :
    (takeInHand c s).dmx = s.dmx := rfl
@[simp] theorem takeInHand_acc (c : Controller) (s : State) :
    (takeInHand c s).acc = s.acc := rfl
@[simp] theorem takeInHand_keys (c : Controller) (s : State) :
    (takeInHand c s).keys = s.keys := rfl
@[simp] theorem takeInHand_pc (c : Controller) (s : State) :
    (takeInHand c s).pc = s.pc := rfl
@[simp] theorem takeInHand_mem (c : Controller) (s : State) :
    (takeInHand c s).mem = s.mem := rfl
@[simp] theorem takeInHand_store (c : Controller) (s : State) :
    (takeInHand c s).store = s.store := rfl
@[simp] theorem takeInHand_consoleIn (c : Controller) (s : State) :
    (takeInHand c s).consoleIn = s.consoleIn := rfl
@[simp] theorem takeInHand_consoleOut (c : Controller) (s : State) :
    (takeInHand c s).consoleOut = s.consoleOut := rfl
@[simp] theorem takeInHand_panel (c : Controller) (s : State) :
    (takeInHand c s).panel = s.panel := rfl
@[simp] theorem takeInHand_params (c : Controller) (s : State) :
    (takeInHand c s).params = s.params := rfl
@[simp] theorem takeInHand_draws (c : Controller) (s : State) :
    (takeInHand c s).draws = s.draws := rfl
@[simp] theorem takeInHand_inputs (c : Controller) (s : State) :
    (takeInHand c s).inputs = s.inputs := rfl
@[simp] theorem takeInHand_live (c : Controller) (s : State) :
    (takeInHand c s).live = s.live := rfl

/-! ### bringIn -/

@[simp] theorem bringIn_dev (c : Controller) (s : State) :
    (bringIn c s).dev = c.dev := rfl
@[simp] theorem bringIn_oar (c : Controller) (s : State) :
    (bringIn c s).oar = c.oar := rfl
@[simp] theorem bringIn_status (c : Controller) (s : State) :
    (bringIn c s).status = c.status := rfl
@[simp] theorem bringIn_selUnit (c : Controller) (s : State) :
    (bringIn c s).selUnit = c.selUnit := rfl
@[simp] theorem bringIn_openUnit (c : Controller) (s : State) :
    (bringIn c s).openUnit = c.openUnit := rfl
@[simp] theorem bringIn_dmaChan (c : Controller) (s : State) :
    (bringIn c s).dmaChan = c.dmaChan := rfl
@[simp] theorem bringIn_dmaNch (c : Controller) (s : State) :
    (bringIn c s).dmaNch = c.dmaNch := rfl
@[simp] theorem bringIn_run (c : Controller) (s : State) :
    (bringIn c s).run = c.run := rfl
@[simp] theorem bringIn_events (c : Controller) (s : State) :
    (bringIn c s).events = c.events := rfl
@[simp] theorem bringIn_others (c : Controller) (s : State) :
    (bringIn c s).others = (allInstances s).filter (fun d => d.dev != c.dev) := rfl
@[simp] theorem bringIn_dmx (c : Controller) (s : State) :
    (bringIn c s).dmx = s.dmx := rfl
@[simp] theorem bringIn_acc (c : Controller) (s : State) :
    (bringIn c s).acc = s.acc := rfl
@[simp] theorem bringIn_keys (c : Controller) (s : State) :
    (bringIn c s).keys = s.keys := rfl
@[simp] theorem bringIn_pc (c : Controller) (s : State) :
    (bringIn c s).pc = s.pc := rfl
@[simp] theorem bringIn_mem (c : Controller) (s : State) :
    (bringIn c s).mem = s.mem := rfl
@[simp] theorem bringIn_store (c : Controller) (s : State) :
    (bringIn c s).store = s.store := rfl
@[simp] theorem bringIn_consoleIn (c : Controller) (s : State) :
    (bringIn c s).consoleIn = s.consoleIn := rfl
@[simp] theorem bringIn_consoleOut (c : Controller) (s : State) :
    (bringIn c s).consoleOut = s.consoleOut := rfl
@[simp] theorem bringIn_panel (c : Controller) (s : State) :
    (bringIn c s).panel = s.panel := rfl
@[simp] theorem bringIn_params (c : Controller) (s : State) :
    (bringIn c s).params = s.params := rfl
@[simp] theorem bringIn_draws (c : Controller) (s : State) :
    (bringIn c s).draws = s.draws := rfl
@[simp] theorem bringIn_inputs (c : Controller) (s : State) :
    (bringIn c s).inputs = s.inputs := rfl
@[simp] theorem bringIn_live (c : Controller) (s : State) :
    (bringIn c s).live = true := rfl

/-! ### produce -/

@[simp] theorem produce_dev (h : Handler) (fn : Nat) (v : Word) (s : State) :
    (produce h fn v s).dev = s.dev := rfl
@[simp] theorem produce_oar (h : Handler) (fn : Nat) (v : Word) (s : State) :
    (produce h fn v s).oar = s.oar := rfl
@[simp] theorem produce_status (h : Handler) (fn : Nat) (v : Word) (s : State) :
    (produce h fn v s).status = s.status := rfl
@[simp] theorem produce_selUnit (h : Handler) (fn : Nat) (v : Word) (s : State) :
    (produce h fn v s).selUnit = s.selUnit := rfl
@[simp] theorem produce_openUnit (h : Handler) (fn : Nat) (v : Word) (s : State) :
    (produce h fn v s).openUnit = s.openUnit := rfl
@[simp] theorem produce_dmaChan (h : Handler) (fn : Nat) (v : Word) (s : State) :
    (produce h fn v s).dmaChan = s.dmaChan := rfl
@[simp] theorem produce_dmaNch (h : Handler) (fn : Nat) (v : Word) (s : State) :
    (produce h fn v s).dmaNch = s.dmaNch := rfl
@[simp] theorem produce_run (h : Handler) (fn : Nat) (v : Word) (s : State) :
    (produce h fn v s).run = s.run := rfl
@[simp] theorem produce_events (h : Handler) (fn : Nat) (v : Word) (s : State) :
    (produce h fn v s).events = s.events := rfl
@[simp] theorem produce_others (h : Handler) (fn : Nat) (v : Word) (s : State) :
    (produce h fn v s).others = s.others := rfl
@[simp] theorem produce_dmx (h : Handler) (fn : Nat) (v : Word) (s : State) :
    (produce h fn v s).dmx = s.dmx := rfl
@[simp] theorem produce_acc (h : Handler) (fn : Nat) (v : Word) (s : State) :
    (produce h fn v s).acc = if orsInto h fn then s.acc ||| v else v := rfl
@[simp] theorem produce_keys (h : Handler) (fn : Nat) (v : Word) (s : State) :
    (produce h fn v s).keys = s.keys := rfl
@[simp] theorem produce_pc (h : Handler) (fn : Nat) (v : Word) (s : State) :
    (produce h fn v s).pc = s.pc := rfl
@[simp] theorem produce_mem (h : Handler) (fn : Nat) (v : Word) (s : State) :
    (produce h fn v s).mem = s.mem := rfl
@[simp] theorem produce_store (h : Handler) (fn : Nat) (v : Word) (s : State) :
    (produce h fn v s).store = s.store := rfl
@[simp] theorem produce_consoleIn (h : Handler) (fn : Nat) (v : Word) (s : State) :
    (produce h fn v s).consoleIn = s.consoleIn := rfl
@[simp] theorem produce_consoleOut (h : Handler) (fn : Nat) (v : Word) (s : State) :
    (produce h fn v s).consoleOut = s.consoleOut := rfl
@[simp] theorem produce_panel (h : Handler) (fn : Nat) (v : Word) (s : State) :
    (produce h fn v s).panel = s.panel := rfl
@[simp] theorem produce_params (h : Handler) (fn : Nat) (v : Word) (s : State) :
    (produce h fn v s).params = s.params := rfl
@[simp] theorem produce_draws (h : Handler) (fn : Nat) (v : Word) (s : State) :
    (produce h fn v s).draws = s.draws := rfl
@[simp] theorem produce_inputs (h : Handler) (fn : Nat) (v : Word) (s : State) :
    (produce h fn v s).inputs = s.inputs := rfl
@[simp] theorem produce_live (h : Handler) (fn : Nat) (v : Word) (s : State) :
    (produce h fn v s).live = s.live := rfl

/-! ### transferWrites -/

@[simp] theorem transferWrites_dev (i : Fin 64) (n : Nat) (bs : List Byte) (s : State) :
    (transferWrites i n bs s).dev = s.dev := rfl
@[simp] theorem transferWrites_oar (i : Fin 64) (n : Nat) (bs : List Byte) (s : State) :
    (transferWrites i n bs s).oar = s.oar := rfl
@[simp] theorem transferWrites_status (i : Fin 64) (n : Nat) (bs : List Byte) (s : State) :
    (transferWrites i n bs s).status = s.status := rfl
@[simp] theorem transferWrites_selUnit (i : Fin 64) (n : Nat) (bs : List Byte) (s : State) :
    (transferWrites i n bs s).selUnit = s.selUnit := rfl
@[simp] theorem transferWrites_openUnit (i : Fin 64) (n : Nat) (bs : List Byte) (s : State) :
    (transferWrites i n bs s).openUnit = s.openUnit := rfl
@[simp] theorem transferWrites_dmaChan (i : Fin 64) (n : Nat) (bs : List Byte) (s : State) :
    (transferWrites i n bs s).dmaChan = s.dmaChan := rfl
@[simp] theorem transferWrites_dmaNch (i : Fin 64) (n : Nat) (bs : List Byte) (s : State) :
    (transferWrites i n bs s).dmaNch = s.dmaNch := rfl
@[simp] theorem transferWrites_run (i : Fin 64) (n : Nat) (bs : List Byte) (s : State) :
    (transferWrites i n bs s).run = s.run := rfl
@[simp] theorem transferWrites_events (i : Fin 64) (n : Nat) (bs : List Byte) (s : State) :
    (transferWrites i n bs s).events = s.events := rfl
@[simp] theorem transferWrites_others (i : Fin 64) (n : Nat) (bs : List Byte) (s : State) :
    (transferWrites i n bs s).others = s.others := rfl
@[simp] theorem transferWrites_dmx (i : Fin 64) (n : Nat) (bs : List Byte) (s : State) :
    (transferWrites i n bs s).dmx = (s.dmx.set i 0).set (addrIndex i) (dmxRead s (addrIndex i) + BitVec.ofNat 16 n) := rfl
@[simp] theorem transferWrites_acc (i : Fin 64) (n : Nat) (bs : List Byte) (s : State) :
    (transferWrites i n bs s).acc = s.acc := rfl
@[simp] theorem transferWrites_keys (i : Fin 64) (n : Nat) (bs : List Byte) (s : State) :
    (transferWrites i n bs s).keys = s.keys := rfl
@[simp] theorem transferWrites_pc (i : Fin 64) (n : Nat) (bs : List Byte) (s : State) :
    (transferWrites i n bs s).pc = s.pc := rfl
@[simp] theorem transferWrites_mem (i : Fin 64) (n : Nat) (bs : List Byte) (s : State) :
    (transferWrites i n bs s).mem = s.mem.writeWords (dmxRead s (addrIndex i)) (wordsOfBytes bs) := rfl
@[simp] theorem transferWrites_store (i : Fin 64) (n : Nat) (bs : List Byte) (s : State) :
    (transferWrites i n bs s).store = s.store := rfl
@[simp] theorem transferWrites_consoleIn (i : Fin 64) (n : Nat) (bs : List Byte) (s : State) :
    (transferWrites i n bs s).consoleIn = s.consoleIn := rfl
@[simp] theorem transferWrites_consoleOut (i : Fin 64) (n : Nat) (bs : List Byte) (s : State) :
    (transferWrites i n bs s).consoleOut = s.consoleOut := rfl
@[simp] theorem transferWrites_panel (i : Fin 64) (n : Nat) (bs : List Byte) (s : State) :
    (transferWrites i n bs s).panel = s.panel := rfl
@[simp] theorem transferWrites_params (i : Fin 64) (n : Nat) (bs : List Byte) (s : State) :
    (transferWrites i n bs s).params = s.params := rfl
@[simp] theorem transferWrites_draws (i : Fin 64) (n : Nat) (bs : List Byte) (s : State) :
    (transferWrites i n bs s).draws = s.draws := rfl
@[simp] theorem transferWrites_inputs (i : Fin 64) (n : Nat) (bs : List Byte) (s : State) :
    (transferWrites i n bs s).inputs = s.inputs := rfl
@[simp] theorem transferWrites_live (i : Fin 64) (n : Nat) (bs : List Byte) (s : State) :
    (transferWrites i n bs s).live = s.live := rfl

/-! ### placeOrder -/

@[simp] theorem placeOrder_dev (ws : List Word) (s : State) :
    (placeOrder ws s).dev = s.dev := rfl
@[simp] theorem placeOrder_oar (ws : List Word) (s : State) :
    (placeOrder ws s).oar = s.oar := rfl
@[simp] theorem placeOrder_status (ws : List Word) (s : State) :
    (placeOrder ws s).status = s.status := rfl
@[simp] theorem placeOrder_selUnit (ws : List Word) (s : State) :
    (placeOrder ws s).selUnit = s.selUnit := rfl
@[simp] theorem placeOrder_openUnit (ws : List Word) (s : State) :
    (placeOrder ws s).openUnit = s.openUnit := rfl
@[simp] theorem placeOrder_dmaChan (ws : List Word) (s : State) :
    (placeOrder ws s).dmaChan = s.dmaChan := rfl
@[simp] theorem placeOrder_dmaNch (ws : List Word) (s : State) :
    (placeOrder ws s).dmaNch = s.dmaNch := rfl
@[simp] theorem placeOrder_run (ws : List Word) (s : State) :
    (placeOrder ws s).run = .running := rfl
@[simp] theorem placeOrder_events (ws : List Word) (s : State) :
    (placeOrder ws s).events = s.events := rfl
@[simp] theorem placeOrder_others (ws : List Word) (s : State) :
    (placeOrder ws s).others = s.others := rfl
@[simp] theorem placeOrder_dmx (ws : List Word) (s : State) :
    (placeOrder ws s).dmx = s.dmx := rfl
@[simp] theorem placeOrder_acc (ws : List Word) (s : State) :
    (placeOrder ws s).acc = s.acc := rfl
@[simp] theorem placeOrder_keys (ws : List Word) (s : State) :
    (placeOrder ws s).keys = s.keys := rfl
@[simp] theorem placeOrder_pc (ws : List Word) (s : State) :
    (placeOrder ws s).pc = s.pc := rfl
@[simp] theorem placeOrder_mem (ws : List Word) (s : State) :
    (placeOrder ws s).mem = s.mem.writeWords s.oar ws := rfl
@[simp] theorem placeOrder_store (ws : List Word) (s : State) :
    (placeOrder ws s).store = s.store := rfl
@[simp] theorem placeOrder_consoleIn (ws : List Word) (s : State) :
    (placeOrder ws s).consoleIn = s.consoleIn := rfl
@[simp] theorem placeOrder_consoleOut (ws : List Word) (s : State) :
    (placeOrder ws s).consoleOut = s.consoleOut := rfl
@[simp] theorem placeOrder_panel (ws : List Word) (s : State) :
    (placeOrder ws s).panel = s.panel := rfl
@[simp] theorem placeOrder_params (ws : List Word) (s : State) :
    (placeOrder ws s).params = s.params := rfl
@[simp] theorem placeOrder_draws (ws : List Word) (s : State) :
    (placeOrder ws s).draws = s.draws := rfl
@[simp] theorem placeOrder_inputs (ws : List Word) (s : State) :
    (placeOrder ws s).inputs = s.inputs := rfl
@[simp] theorem placeOrder_live (ws : List Word) (s : State) :
    (placeOrder ws s).live = s.live := rfl

/-! ### afterCond -/

@[simp] theorem afterCond_dev (c : Bool) (s : State) :
    (afterCond c s).dev = s.dev := by
  cases c <;> rfl
@[simp] theorem afterCond_oar (c : Bool) (s : State) :
    (afterCond c s).oar = s.oar := by
  cases c <;> rfl
@[simp] theorem afterCond_status (c : Bool) (s : State) :
    (afterCond c s).status = s.status := by
  cases c <;> rfl
@[simp] theorem afterCond_selUnit (c : Bool) (s : State) :
    (afterCond c s).selUnit = s.selUnit := by
  cases c <;> rfl
@[simp] theorem afterCond_openUnit (c : Bool) (s : State) :
    (afterCond c s).openUnit = s.openUnit := by
  cases c <;> rfl
@[simp] theorem afterCond_dmaChan (c : Bool) (s : State) :
    (afterCond c s).dmaChan = s.dmaChan := by
  cases c <;> rfl
@[simp] theorem afterCond_dmaNch (c : Bool) (s : State) :
    (afterCond c s).dmaNch = s.dmaNch := by
  cases c <;> rfl
@[simp] theorem afterCond_run (c : Bool) (s : State) :
    (afterCond c s).run = s.run := by
  cases c <;> rfl
@[simp] theorem afterCond_events (c : Bool) (s : State) :
    (afterCond c s).events = s.events := by
  cases c <;> rfl
@[simp] theorem afterCond_others (c : Bool) (s : State) :
    (afterCond c s).others = s.others := by
  cases c <;> rfl
@[simp] theorem afterCond_dmx (c : Bool) (s : State) :
    (afterCond c s).dmx = s.dmx := by
  cases c <;> rfl
@[simp] theorem afterCond_acc (c : Bool) (s : State) :
    (afterCond c s).acc = s.acc := by
  cases c <;> rfl
@[simp] theorem afterCond_keys (c : Bool) (s : State) :
    (afterCond c s).keys = s.keys := by
  cases c <;> rfl
@[simp] theorem afterCond_pc (c : Bool) (s : State) :
    (afterCond c s).pc = s.pc := by
  cases c <;> rfl
@[simp] theorem afterCond_mem (c : Bool) (s : State) :
    (afterCond c s).mem = s.mem := by
  cases c <;> rfl
@[simp] theorem afterCond_store (c : Bool) (s : State) :
    (afterCond c s).store = s.store := by
  cases c <;> rfl
@[simp] theorem afterCond_consoleIn (c : Bool) (s : State) :
    (afterCond c s).consoleIn = s.consoleIn := by
  cases c <;> rfl
@[simp] theorem afterCond_consoleOut (c : Bool) (s : State) :
    (afterCond c s).consoleOut = s.consoleOut := by
  cases c <;> rfl
@[simp] theorem afterCond_panel (c : Bool) (s : State) :
    (afterCond c s).panel = s.panel := by
  cases c <;> rfl
@[simp] theorem afterCond_params (c : Bool) (s : State) :
    (afterCond c s).params = s.params := by
  cases c <;> rfl
@[simp] theorem afterCond_draws (c : Bool) (s : State) :
    (afterCond c s).draws = if c then s.draws + 1 else s.draws := by
  cases c <;> rfl
@[simp] theorem afterCond_inputs (c : Bool) (s : State) :
    (afterCond c s).inputs = s.inputs := by
  cases c <;> rfl
@[simp] theorem afterCond_live (c : Bool) (s : State) :
    (afterCond c s).live = s.live := by
  cases c <;> rfl

/-! ### statusOnOpen -/

@[simp] theorem statusOnOpen_dev (s : State) :
    (statusOnOpen s).dev = s.dev := by
  simp only [statusOnOpen]; split <;> rfl
@[simp] theorem statusOnOpen_oar (s : State) :
    (statusOnOpen s).oar = s.oar := by
  simp only [statusOnOpen]; split <;> rfl
@[simp] theorem statusOnOpen_status (s : State) :
    (statusOnOpen s).status = if s.params.nrClearOnSelect then s.status &&& ~~~s.params.notReadyMask else s.status := by
  simp only [statusOnOpen]; split <;> rfl
@[simp] theorem statusOnOpen_selUnit (s : State) :
    (statusOnOpen s).selUnit = s.selUnit := by
  simp only [statusOnOpen]; split <;> rfl
@[simp] theorem statusOnOpen_openUnit (s : State) :
    (statusOnOpen s).openUnit = s.openUnit := by
  simp only [statusOnOpen]; split <;> rfl
@[simp] theorem statusOnOpen_dmaChan (s : State) :
    (statusOnOpen s).dmaChan = s.dmaChan := by
  simp only [statusOnOpen]; split <;> rfl
@[simp] theorem statusOnOpen_dmaNch (s : State) :
    (statusOnOpen s).dmaNch = s.dmaNch := by
  simp only [statusOnOpen]; split <;> rfl
@[simp] theorem statusOnOpen_run (s : State) :
    (statusOnOpen s).run = s.run := by
  simp only [statusOnOpen]; split <;> rfl
@[simp] theorem statusOnOpen_events (s : State) :
    (statusOnOpen s).events = s.events := by
  simp only [statusOnOpen]; split <;> rfl
@[simp] theorem statusOnOpen_others (s : State) :
    (statusOnOpen s).others = s.others := by
  simp only [statusOnOpen]; split <;> rfl
@[simp] theorem statusOnOpen_dmx (s : State) :
    (statusOnOpen s).dmx = s.dmx := by
  simp only [statusOnOpen]; split <;> rfl
@[simp] theorem statusOnOpen_acc (s : State) :
    (statusOnOpen s).acc = s.acc := by
  simp only [statusOnOpen]; split <;> rfl
@[simp] theorem statusOnOpen_keys (s : State) :
    (statusOnOpen s).keys = s.keys := by
  simp only [statusOnOpen]; split <;> rfl
@[simp] theorem statusOnOpen_pc (s : State) :
    (statusOnOpen s).pc = s.pc := by
  simp only [statusOnOpen]; split <;> rfl
@[simp] theorem statusOnOpen_mem (s : State) :
    (statusOnOpen s).mem = s.mem := by
  simp only [statusOnOpen]; split <;> rfl
@[simp] theorem statusOnOpen_store (s : State) :
    (statusOnOpen s).store = s.store := by
  simp only [statusOnOpen]; split <;> rfl
@[simp] theorem statusOnOpen_consoleIn (s : State) :
    (statusOnOpen s).consoleIn = s.consoleIn := by
  simp only [statusOnOpen]; split <;> rfl
@[simp] theorem statusOnOpen_consoleOut (s : State) :
    (statusOnOpen s).consoleOut = s.consoleOut := by
  simp only [statusOnOpen]; split <;> rfl
@[simp] theorem statusOnOpen_panel (s : State) :
    (statusOnOpen s).panel = s.panel := by
  simp only [statusOnOpen]; split <;> rfl
@[simp] theorem statusOnOpen_params (s : State) :
    (statusOnOpen s).params = s.params := by
  simp only [statusOnOpen]; split <;> rfl
@[simp] theorem statusOnOpen_draws (s : State) :
    (statusOnOpen s).draws = s.draws := by
  simp only [statusOnOpen]; split <;> rfl
@[simp] theorem statusOnOpen_inputs (s : State) :
    (statusOnOpen s).inputs = s.inputs := by
  simp only [statusOnOpen]; split <;> rfl
@[simp] theorem statusOnOpen_live (s : State) :
    (statusOnOpen s).live = s.live := by
  simp only [statusOnOpen]; split <;> rfl

/-! ### closeOpen -/

@[simp] theorem closeOpen_dev (s : State) :
    (closeOpen s).dev = s.dev := by
  simp only [closeOpen]; split <;> simp_all
@[simp] theorem closeOpen_oar (s : State) :
    (closeOpen s).oar = s.oar := by
  simp only [closeOpen]; split <;> simp_all
@[simp] theorem closeOpen_status (s : State) :
    (closeOpen s).status = s.status := by
  simp only [closeOpen]; split <;> simp_all
@[simp] theorem closeOpen_selUnit (s : State) :
    (closeOpen s).selUnit = s.selUnit := by
  simp only [closeOpen]; split <;> simp_all
@[simp] theorem closeOpen_openUnit (s : State) :
    (closeOpen s).openUnit = none := by
  simp only [closeOpen]; split <;> simp_all
@[simp] theorem closeOpen_dmaChan (s : State) :
    (closeOpen s).dmaChan = s.dmaChan := by
  simp only [closeOpen]; split <;> simp_all
@[simp] theorem closeOpen_dmaNch (s : State) :
    (closeOpen s).dmaNch = s.dmaNch := by
  simp only [closeOpen]; split <;> simp_all
@[simp] theorem closeOpen_run (s : State) :
    (closeOpen s).run = s.run := by
  simp only [closeOpen]; split <;> simp_all
@[simp] theorem closeOpen_others (s : State) :
    (closeOpen s).others = s.others := by
  simp only [closeOpen]; split <;> simp_all
@[simp] theorem closeOpen_dmx (s : State) :
    (closeOpen s).dmx = s.dmx := by
  simp only [closeOpen]; split <;> simp_all
@[simp] theorem closeOpen_acc (s : State) :
    (closeOpen s).acc = s.acc := by
  simp only [closeOpen]; split <;> simp_all
@[simp] theorem closeOpen_keys (s : State) :
    (closeOpen s).keys = s.keys := by
  simp only [closeOpen]; split <;> simp_all
@[simp] theorem closeOpen_pc (s : State) :
    (closeOpen s).pc = s.pc := by
  simp only [closeOpen]; split <;> simp_all
@[simp] theorem closeOpen_mem (s : State) :
    (closeOpen s).mem = s.mem := by
  simp only [closeOpen]; split <;> simp_all
@[simp] theorem closeOpen_store (s : State) :
    (closeOpen s).store = s.store := by
  simp only [closeOpen]; split <;> simp_all
@[simp] theorem closeOpen_consoleIn (s : State) :
    (closeOpen s).consoleIn = s.consoleIn := by
  simp only [closeOpen]; split <;> simp_all
@[simp] theorem closeOpen_consoleOut (s : State) :
    (closeOpen s).consoleOut = s.consoleOut := by
  simp only [closeOpen]; split <;> simp_all
@[simp] theorem closeOpen_panel (s : State) :
    (closeOpen s).panel = s.panel := by
  simp only [closeOpen]; split <;> simp_all
@[simp] theorem closeOpen_params (s : State) :
    (closeOpen s).params = s.params := by
  simp only [closeOpen]; split <;> simp_all
@[simp] theorem closeOpen_draws (s : State) :
    (closeOpen s).draws = s.draws := by
  simp only [closeOpen]; split <;> simp_all
@[simp] theorem closeOpen_inputs (s : State) :
    (closeOpen s).inputs = s.inputs := by
  simp only [closeOpen]; split <;> simp_all
@[simp] theorem closeOpen_live (s : State) :
    (closeOpen s).live = s.live := by
  simp only [closeOpen]; split <;> simp_all

/-! ### storeOpen -/

@[simp] theorem storeOpen_dev (u : UnitIndex) (s : State) :
    (storeOpen u s).dev = s.dev := by
  simp only [storeOpen]; split <;> simp_all
@[simp] theorem storeOpen_oar (u : UnitIndex) (s : State) :
    (storeOpen u s).oar = s.oar := by
  simp only [storeOpen]; split <;> simp_all
@[simp] theorem storeOpen_selUnit (u : UnitIndex) (s : State) :
    (storeOpen u s).selUnit = s.selUnit := by
  simp only [storeOpen]; split <;> simp_all
@[simp] theorem storeOpen_dmaChan (u : UnitIndex) (s : State) :
    (storeOpen u s).dmaChan = s.dmaChan := by
  simp only [storeOpen]; split <;> simp_all
@[simp] theorem storeOpen_dmaNch (u : UnitIndex) (s : State) :
    (storeOpen u s).dmaNch = s.dmaNch := by
  simp only [storeOpen]; split <;> simp_all
@[simp] theorem storeOpen_run (u : UnitIndex) (s : State) :
    (storeOpen u s).run = s.run := by
  simp only [storeOpen]; split <;> simp_all
@[simp] theorem storeOpen_events (u : UnitIndex) (s : State) :
    (storeOpen u s).events = s.events ++ [.opened u (present s u)] := by
  simp only [storeOpen]; split <;> simp_all
@[simp] theorem storeOpen_others (u : UnitIndex) (s : State) :
    (storeOpen u s).others = s.others := by
  simp only [storeOpen]; split <;> simp_all
@[simp] theorem storeOpen_dmx (u : UnitIndex) (s : State) :
    (storeOpen u s).dmx = s.dmx := by
  simp only [storeOpen]; split <;> simp_all
@[simp] theorem storeOpen_acc (u : UnitIndex) (s : State) :
    (storeOpen u s).acc = s.acc := by
  simp only [storeOpen]; split <;> simp_all
@[simp] theorem storeOpen_keys (u : UnitIndex) (s : State) :
    (storeOpen u s).keys = s.keys := by
  simp only [storeOpen]; split <;> simp_all
@[simp] theorem storeOpen_pc (u : UnitIndex) (s : State) :
    (storeOpen u s).pc = s.pc := by
  simp only [storeOpen]; split <;> simp_all
@[simp] theorem storeOpen_mem (u : UnitIndex) (s : State) :
    (storeOpen u s).mem = s.mem := by
  simp only [storeOpen]; split <;> simp_all
@[simp] theorem storeOpen_store (u : UnitIndex) (s : State) :
    (storeOpen u s).store = s.store := by
  simp only [storeOpen]; split <;> simp_all
@[simp] theorem storeOpen_consoleIn (u : UnitIndex) (s : State) :
    (storeOpen u s).consoleIn = s.consoleIn := by
  simp only [storeOpen]; split <;> simp_all
@[simp] theorem storeOpen_consoleOut (u : UnitIndex) (s : State) :
    (storeOpen u s).consoleOut = s.consoleOut := by
  simp only [storeOpen]; split <;> simp_all
@[simp] theorem storeOpen_panel (u : UnitIndex) (s : State) :
    (storeOpen u s).panel = s.panel := by
  simp only [storeOpen]; split <;> simp_all
@[simp] theorem storeOpen_params (u : UnitIndex) (s : State) :
    (storeOpen u s).params = s.params := by
  simp only [storeOpen]; split <;> simp_all
@[simp] theorem storeOpen_draws (u : UnitIndex) (s : State) :
    (storeOpen u s).draws = s.draws := by
  simp only [storeOpen]; split <;> simp_all
@[simp] theorem storeOpen_inputs (u : UnitIndex) (s : State) :
    (storeOpen u s).inputs = s.inputs := by
  simp only [storeOpen]; split <;> simp_all
@[simp] theorem storeOpen_live (u : UnitIndex) (s : State) :
    (storeOpen u s).live = s.live := by
  simp only [storeOpen]; split <;> simp_all

/-! ### changeUnit -/

@[simp] theorem changeUnit_dev (u : UnitIndex) (s : State) :
    (changeUnit u s).dev = s.dev := by
  simp only [changeUnit]; split <;> simp
@[simp] theorem changeUnit_oar (u : UnitIndex) (s : State) :
    (changeUnit u s).oar = s.oar := by
  simp only [changeUnit]; split <;> simp
@[simp] theorem changeUnit_selUnit (u : UnitIndex) (s : State) :
    (changeUnit u s).selUnit = s.selUnit := by
  simp only [changeUnit]; split <;> simp
@[simp] theorem changeUnit_dmaChan (u : UnitIndex) (s : State) :
    (changeUnit u s).dmaChan = s.dmaChan := by
  simp only [changeUnit]; split <;> simp
@[simp] theorem changeUnit_dmaNch (u : UnitIndex) (s : State) :
    (changeUnit u s).dmaNch = s.dmaNch := by
  simp only [changeUnit]; split <;> simp
@[simp] theorem changeUnit_run (u : UnitIndex) (s : State) :
    (changeUnit u s).run = s.run := by
  simp only [changeUnit]; split <;> simp
@[simp] theorem changeUnit_others (u : UnitIndex) (s : State) :
    (changeUnit u s).others = s.others := by
  simp only [changeUnit]; split <;> simp
@[simp] theorem changeUnit_dmx (u : UnitIndex) (s : State) :
    (changeUnit u s).dmx = s.dmx := by
  simp only [changeUnit]; split <;> simp
@[simp] theorem changeUnit_acc (u : UnitIndex) (s : State) :
    (changeUnit u s).acc = s.acc := by
  simp only [changeUnit]; split <;> simp
@[simp] theorem changeUnit_keys (u : UnitIndex) (s : State) :
    (changeUnit u s).keys = s.keys := by
  simp only [changeUnit]; split <;> simp
@[simp] theorem changeUnit_pc (u : UnitIndex) (s : State) :
    (changeUnit u s).pc = s.pc := by
  simp only [changeUnit]; split <;> simp
@[simp] theorem changeUnit_mem (u : UnitIndex) (s : State) :
    (changeUnit u s).mem = s.mem := by
  simp only [changeUnit]; split <;> simp
@[simp] theorem changeUnit_store (u : UnitIndex) (s : State) :
    (changeUnit u s).store = s.store := by
  simp only [changeUnit]; split <;> simp
@[simp] theorem changeUnit_consoleIn (u : UnitIndex) (s : State) :
    (changeUnit u s).consoleIn = s.consoleIn := by
  simp only [changeUnit]; split <;> simp
@[simp] theorem changeUnit_consoleOut (u : UnitIndex) (s : State) :
    (changeUnit u s).consoleOut = s.consoleOut := by
  simp only [changeUnit]; split <;> simp
@[simp] theorem changeUnit_panel (u : UnitIndex) (s : State) :
    (changeUnit u s).panel = s.panel := by
  simp only [changeUnit]; split <;> simp
@[simp] theorem changeUnit_params (u : UnitIndex) (s : State) :
    (changeUnit u s).params = s.params := by
  simp only [changeUnit]; split <;> simp
@[simp] theorem changeUnit_draws (u : UnitIndex) (s : State) :
    (changeUnit u s).draws = s.draws := by
  simp only [changeUnit]; split <;> simp
@[simp] theorem changeUnit_inputs (u : UnitIndex) (s : State) :
    (changeUnit u s).inputs = s.inputs := by
  simp only [changeUnit]; split <;> simp
@[simp] theorem changeUnit_live (u : UnitIndex) (s : State) :
    (changeUnit u s).live = s.live := by
  simp only [changeUnit]; split <;> simp

/-! ### successSkip -/

@[simp] theorem successSkip_dev (s : State) :
    (successSkip s).dev = s.dev := by
  simp only [successSkip]; split <;> simp_all
@[simp] theorem successSkip_oar (s : State) :
    (successSkip s).oar = s.oar := by
  simp only [successSkip]; split <;> simp_all
@[simp] theorem successSkip_status (s : State) :
    (successSkip s).status = s.status := by
  simp only [successSkip]; split <;> simp_all
@[simp] theorem successSkip_selUnit (s : State) :
    (successSkip s).selUnit = s.selUnit := by
  simp only [successSkip]; split <;> simp_all
@[simp] theorem successSkip_openUnit (s : State) :
    (successSkip s).openUnit = s.openUnit := by
  simp only [successSkip]; split <;> simp_all
@[simp] theorem successSkip_dmaChan (s : State) :
    (successSkip s).dmaChan = s.dmaChan := by
  simp only [successSkip]; split <;> simp_all
@[simp] theorem successSkip_dmaNch (s : State) :
    (successSkip s).dmaNch = s.dmaNch := by
  simp only [successSkip]; split <;> simp_all
@[simp] theorem successSkip_run (s : State) :
    (successSkip s).run = s.run := by
  simp only [successSkip]; split <;> simp_all
@[simp] theorem successSkip_events (s : State) :
    (successSkip s).events = s.events := by
  simp only [successSkip]; split <;> simp_all
@[simp] theorem successSkip_others (s : State) :
    (successSkip s).others = s.others := by
  simp only [successSkip]; split <;> simp_all
@[simp] theorem successSkip_dmx (s : State) :
    (successSkip s).dmx = s.dmx := by
  simp only [successSkip]; split <;> simp_all
@[simp] theorem successSkip_acc (s : State) :
    (successSkip s).acc = s.acc := by
  simp only [successSkip]; split <;> simp_all
@[simp] theorem successSkip_keys (s : State) :
    (successSkip s).keys = if s.keys &&& s.params.skipModeMask ≠ 0 then s.keys ||| s.params.skipCcMask else s.keys := by
  simp only [successSkip]; split <;> simp_all
@[simp] theorem successSkip_pc (s : State) :
    (successSkip s).pc = if s.keys &&& s.params.skipModeMask ≠ 0 then s.pc else s.pc + 1 := by
  simp only [successSkip]; split <;> simp_all
@[simp] theorem successSkip_mem (s : State) :
    (successSkip s).mem = s.mem := by
  simp only [successSkip]; split <;> simp_all
@[simp] theorem successSkip_store (s : State) :
    (successSkip s).store = s.store := by
  simp only [successSkip]; split <;> simp_all
@[simp] theorem successSkip_consoleIn (s : State) :
    (successSkip s).consoleIn = s.consoleIn := by
  simp only [successSkip]; split <;> simp_all
@[simp] theorem successSkip_consoleOut (s : State) :
    (successSkip s).consoleOut = s.consoleOut := by
  simp only [successSkip]; split <;> simp_all
@[simp] theorem successSkip_panel (s : State) :
    (successSkip s).panel = s.panel := by
  simp only [successSkip]; split <;> simp_all
@[simp] theorem successSkip_params (s : State) :
    (successSkip s).params = s.params := by
  simp only [successSkip]; split <;> simp_all
@[simp] theorem successSkip_draws (s : State) :
    (successSkip s).draws = s.draws := by
  simp only [successSkip]; split <;> simp_all
@[simp] theorem successSkip_inputs (s : State) :
    (successSkip s).inputs = s.inputs := by
  simp only [successSkip]; split <;> simp_all
@[simp] theorem successSkip_live (s : State) :
    (successSkip s).live = s.live := by
  simp only [successSkip]; split <;> simp_all

/-! ### endCall -/

@[simp] theorem endCall_dev (s : State) :
    (endCall s).dev = s.dev := by
  simp only [endCall]; split <;> simp_all
@[simp] theorem endCall_oar (s : State) :
    (endCall s).oar = s.oar := by
  simp only [endCall]; split <;> simp_all
@[simp] theorem endCall_status (s : State) :
    (endCall s).status = s.status := by
  simp only [endCall]; split <;> simp_all
@[simp] theorem endCall_selUnit (s : State) :
    (endCall s).selUnit = s.selUnit := by
  simp only [endCall]; split <;> simp_all
@[simp] theorem endCall_openUnit (s : State) :
    (endCall s).openUnit = s.openUnit := by
  simp only [endCall]; split <;> simp_all
@[simp] theorem endCall_dmaChan (s : State) :
    (endCall s).dmaChan = s.dmaChan := by
  simp only [endCall]; split <;> simp_all
@[simp] theorem endCall_dmaNch (s : State) :
    (endCall s).dmaNch = s.dmaNch := by
  simp only [endCall]; split <;> simp_all
@[simp] theorem endCall_run (s : State) :
    (endCall s).run = s.run := by
  simp only [endCall]; split <;> simp_all
@[simp] theorem endCall_events (s : State) :
    (endCall s).events = s.events := by
  simp only [endCall]; split <;> simp_all
@[simp] theorem endCall_others (s : State) :
    (endCall s).others = s.others := by
  simp only [endCall]; split <;> simp_all
@[simp] theorem endCall_dmx (s : State) :
    (endCall s).dmx = s.dmx := by
  simp only [endCall]; split <;> simp_all
@[simp] theorem endCall_acc (s : State) :
    (endCall s).acc = s.acc := by
  simp only [endCall]; split <;> simp_all
@[simp] theorem endCall_mem (s : State) :
    (endCall s).mem = s.mem := by
  simp only [endCall]; split <;> simp_all
@[simp] theorem endCall_store (s : State) :
    (endCall s).store = s.store := by
  simp only [endCall]; split <;> simp_all
@[simp] theorem endCall_consoleIn (s : State) :
    (endCall s).consoleIn = s.consoleIn := by
  simp only [endCall]; split <;> simp_all
@[simp] theorem endCall_consoleOut (s : State) :
    (endCall s).consoleOut = s.consoleOut := by
  simp only [endCall]; split <;> simp_all
@[simp] theorem endCall_panel (s : State) :
    (endCall s).panel = s.panel := by
  simp only [endCall]; split <;> simp_all
@[simp] theorem endCall_params (s : State) :
    (endCall s).params = s.params := by
  simp only [endCall]; split <;> simp_all
@[simp] theorem endCall_draws (s : State) :
    (endCall s).draws = s.draws := by
  simp only [endCall]; split <;> simp_all
@[simp] theorem endCall_inputs (s : State) :
    (endCall s).inputs = s.inputs := by
  simp only [endCall]; split <;> simp_all
@[simp] theorem endCall_live (s : State) :
    (endCall s).live = s.live := by
  simp only [endCall]; split <;> simp_all

/-! ### signalIf -/

@[simp] theorem signalIf_dev (b : Bool) (s : State) :
    (signalIf b s).dev = s.dev := by
  cases b <;> simp [signalIf]
@[simp] theorem signalIf_oar (b : Bool) (s : State) :
    (signalIf b s).oar = s.oar := by
  cases b <;> simp [signalIf]
@[simp] theorem signalIf_status (b : Bool) (s : State) :
    (signalIf b s).status = s.status := by
  cases b <;> simp [signalIf]
@[simp] theorem signalIf_selUnit (b : Bool) (s : State) :
    (signalIf b s).selUnit = s.selUnit := by
  cases b <;> simp [signalIf]
@[simp] theorem signalIf_openUnit (b : Bool) (s : State) :
    (signalIf b s).openUnit = s.openUnit := by
  cases b <;> simp [signalIf]
@[simp] theorem signalIf_dmaChan (b : Bool) (s : State) :
    (signalIf b s).dmaChan = s.dmaChan := by
  cases b <;> simp [signalIf]
@[simp] theorem signalIf_dmaNch (b : Bool) (s : State) :
    (signalIf b s).dmaNch = s.dmaNch := by
  cases b <;> simp [signalIf]
@[simp] theorem signalIf_run (b : Bool) (s : State) :
    (signalIf b s).run = s.run := by
  cases b <;> simp [signalIf]
@[simp] theorem signalIf_events (b : Bool) (s : State) :
    (signalIf b s).events = s.events := by
  cases b <;> simp [signalIf]
@[simp] theorem signalIf_others (b : Bool) (s : State) :
    (signalIf b s).others = s.others := by
  cases b <;> simp [signalIf]
@[simp] theorem signalIf_dmx (b : Bool) (s : State) :
    (signalIf b s).dmx = s.dmx := by
  cases b <;> simp [signalIf]
@[simp] theorem signalIf_acc (b : Bool) (s : State) :
    (signalIf b s).acc = s.acc := by
  cases b <;> simp [signalIf]
@[simp] theorem signalIf_mem (b : Bool) (s : State) :
    (signalIf b s).mem = s.mem := by
  cases b <;> simp [signalIf]
@[simp] theorem signalIf_store (b : Bool) (s : State) :
    (signalIf b s).store = s.store := by
  cases b <;> simp [signalIf]
@[simp] theorem signalIf_consoleIn (b : Bool) (s : State) :
    (signalIf b s).consoleIn = s.consoleIn := by
  cases b <;> simp [signalIf]
@[simp] theorem signalIf_consoleOut (b : Bool) (s : State) :
    (signalIf b s).consoleOut = s.consoleOut := by
  cases b <;> simp [signalIf]
@[simp] theorem signalIf_panel (b : Bool) (s : State) :
    (signalIf b s).panel = s.panel := by
  cases b <;> simp [signalIf]
@[simp] theorem signalIf_params (b : Bool) (s : State) :
    (signalIf b s).params = s.params := by
  cases b <;> simp [signalIf]
@[simp] theorem signalIf_draws (b : Bool) (s : State) :
    (signalIf b s).draws = s.draws := by
  cases b <;> simp [signalIf]
@[simp] theorem signalIf_inputs (b : Bool) (s : State) :
    (signalIf b s).inputs = s.inputs := by
  cases b <;> simp [signalIf]
@[simp] theorem signalIf_live (b : Bool) (s : State) :
    (signalIf b s).live = s.live := by
  cases b <;> simp [signalIf]

/-! ### inHand -/

@[simp] theorem inHand_takeInHand (c : Controller) (s : State) : inHand (takeInHand c s) = c := rfl
@[simp] theorem inHand_bringIn (c : Controller) (s : State) : inHand (bringIn c s) = c := rfl
@[simp] theorem inHand_dev (s : State) : (inHand s).dev = s.dev := rfl
@[simp] theorem inHand_oar (s : State) : (inHand s).oar = s.oar := rfl
@[simp] theorem inHand_status (s : State) : (inHand s).status = s.status := rfl
@[simp] theorem inHand_selUnit (s : State) : (inHand s).selUnit = s.selUnit := rfl
@[simp] theorem inHand_openUnit (s : State) : (inHand s).openUnit = s.openUnit := rfl
@[simp] theorem inHand_dmaChan (s : State) : (inHand s).dmaChan = s.dmaChan := rfl
@[simp] theorem inHand_dmaNch (s : State) : (inHand s).dmaNch = s.dmaNch := rfl
@[simp] theorem inHand_run (s : State) : (inHand s).run = s.run := rfl
@[simp] theorem inHand_events (s : State) : (inHand s).events = s.events := rfl

end Sys2Proof.Machine
end

