-- ==== Sys2Proof/Laws/Memory.lean ====
section
/-! SUPPORT. The laws of main memory: a read after a write to the same place gives what was written, a
write leaves every other place alone, and every operation keeps the canonical form. The laws hold of
every list of cells, canonical or not. -/

namespace Sys2Proof.Machine

/-! ### Cells -/

theorem readByte_erase (m : Memory) (k j : Nat) :
    Memory.readByte (m.erase k) j = if j = k then 0 else m.readByte j := by
  induction m with
  | nil => simp [Memory.erase, Memory.readByte]
  | cons c m ih =>
    simp only [Memory.erase] at ih ⊢
    by_cases hc : c.1 = k
    · simp only [List.filter_cons, hc, bne_self_eq_false, Bool.false_eq_true, if_false, ih,
        Memory.readByte]
      by_cases hj : j = k
      · simp [hj]
      · simp [hj, Ne.symm hj]
    · simp only [List.filter_cons, bne_iff_ne, ne_eq, hc, not_false_eq_true, if_true,
        Memory.readByte, ih]
      by_cases hj : j = k
      · subst hj; simp [hc]
      · simp [hj]

theorem readByte_insertCell (m : Memory) (k j : Nat) (b : Byte) (h : ∀ c ∈ m, c.1 ≠ k) :
    Memory.readByte (m.insertCell k b) j = if j = k then b else m.readByte j := by
  induction m with
  | nil => simp [Memory.insertCell, Memory.readByte, eq_comm]
  | cons c m ih =>
    have hc : c.1 ≠ k := h c (by simp)
    have ih := ih (fun d hd => h d (by simp [hd]))
    simp only [Memory.insertCell]
    split
    · simp [Memory.readByte, eq_comm]
    · simp only [Memory.readByte, ih]
      by_cases hj : j = k
      · subst hj; simp [hc]
      · simp [hj]

theorem key_ne_of_mem_erase (m : Memory) (k : Nat) : ∀ c ∈ m.erase k, c.1 ≠ k := by
  intro c hc
  simpa [Memory.erase] using (List.mem_filter.mp hc).2

/-- A cell read after a cell write. -/
theorem readByte_writeByte (m : Memory) (k j : Nat) (b : Byte) :
    Memory.readByte (m.writeByte k b) j = if j = k then b else m.readByte j := by
  simp only [Memory.writeByte]
  split
  · rename_i hb
    simp [readByte_erase, hb]
  · rw [readByte_insertCell _ _ _ _ (key_ne_of_mem_erase m k), readByte_erase]
    by_cases hj : j = k <;> simp [hj]

/-- A cell read after a word write: the two halves of the word, or what was there. -/
theorem readByte_writeWord (m : Memory) (a v : Word) (j : Nat) :
    Memory.readByte (m.writeWord a v) j =
      if j = 2 * a.toNat then v.extractLsb' 8 8
      else if j = 2 * a.toNat + 1 then v.extractLsb' 0 8 else m.readByte j := by
  simp only [Memory.writeWord, readByte_writeByte]
  by_cases h0 : j = 2 * a.toNat
  · simp [h0]
  · simp [h0]

/-! ### Words -/

theorem append_halves (v : Word) : v.extractLsb' 8 8 ++ v.extractLsb' 0 8 = v := by
  ext i hi
  simp only [BitVec.getElem_append, BitVec.getElem_extractLsb']
  split
  · simp [← BitVec.getLsbD_eq_getElem]
  · rw [← BitVec.getLsbD_eq_getElem]
    congr 1
    omega

/-- A word read after a write to the same address gives the word written. -/
@[simp] theorem readWord_writeWord_self (m : Memory) (a v : Word) :
    Memory.readWord (m.writeWord a v) a = v := by
  simp [Memory.readWord, readByte_writeWord, append_halves]

/-- A word write leaves every other word alone. -/
theorem readWord_writeWord_ne (m : Memory) (a b v : Word) (h : b ≠ a) :
    Memory.readWord (m.writeWord a v) b = m.readWord b := by
  have hn : b.toNat ≠ a.toNat := fun e => h (BitVec.eq_of_toNat_eq e)
  have h0 : 2 * b.toNat ≠ 2 * a.toNat + 1 := by omega
  have h1 : 2 * b.toNat + 1 ≠ 2 * a.toNat := by omega
  simp [Memory.readWord, readByte_writeWord, hn, h0, h1]

theorem readWord_writeWord (m : Memory) (a b v : Word) :
    Memory.readWord (m.writeWord a v) b = if b = a then v else m.readWord b := by
  by_cases h : b = a
  · simp [h]
  · simp [h, readWord_writeWord_ne]

/-- The `k`-th address after `a + 1` is the `k + 1`-st after `a`. -/
theorem addr_succ (a : Word) (k : Nat) :
    a + BitVec.ofNat 16 (k + 1) = a + 1 + BitVec.ofNat 16 k := by
  have h1 : (1 : Word).toNat = 1 := rfl
  apply BitVec.eq_of_toNat_eq
  simp only [BitVec.toNat_add, BitVec.toNat_ofNat, h1]
  omega

/-- Fewer than 65536 addresses on, the address is another one. -/
theorem addr_ne (a : Word) (k : Nat) (h0 : 0 < k) (h : k < 65536) :
    a ≠ a + BitVec.ofNat 16 k := by
  intro e
  have := congrArg BitVec.toNat e
  have ha := a.isLt
  simp only [BitVec.toNat_add, BitVec.toNat_ofNat] at this
  omega

/-- Writing consecutive words leaves a cell outside their addresses alone. -/
theorem readByte_writeWords_ne (vs : List Word) (m : Memory) (a : Word) (j : Nat)
    (h : ∀ k < vs.length, j / 2 ≠ (a + BitVec.ofNat 16 k).toNat) :
    Memory.readByte (m.writeWords a vs) j = m.readByte j := by
  induction vs generalizing m a with
  | nil => rfl
  | cons v vs ih =>
    simp only [Memory.writeWords]
    rw [ih]
    · have h0 := h 0 (by simp)
      simp only [BitVec.add_zero] at h0
      rw [readByte_writeWord, if_neg (by omega), if_neg (by omega)]
    · intro k hk
      rw [← addr_succ]
      exact h (k + 1) (by simpa using hk)

/-- Writing consecutive words leaves a word outside their addresses alone. -/
theorem readWord_writeWords_ne (vs : List Word) (m : Memory) (a b : Word)
    (h : ∀ k < vs.length, b ≠ a + BitVec.ofNat 16 k) :
    Memory.readWord (m.writeWords a vs) b = m.readWord b := by
  have hne : ∀ k < vs.length, b.toNat ≠ (a + BitVec.ofNat 16 k).toNat :=
    fun k hk e => h k hk (BitVec.eq_of_toNat_eq e)
  simp only [Memory.readWord]
  rw [readByte_writeWords_ne, readByte_writeWords_ne]
  · intro k hk; have := hne k hk; omega
  · intro k hk; have := hne k hk; omega

/-- Writing at most 65536 consecutive words leaves the `k`-th word at the `k`-th address. -/
theorem readWord_writeWords (vs : List Word) (m : Memory) (a : Word)
    (hlen : vs.length ≤ 65536) (k : Nat) (hk : k < vs.length) :
    Memory.readWord (m.writeWords a vs) (a + BitVec.ofNat 16 k) = vs[k] := by
  induction vs generalizing m a k with
  | nil => simp at hk
  | cons v vs ih =>
    simp only [Memory.writeWords]
    cases k with
    | zero =>
      simp only [BitVec.add_zero, List.getElem_cons_zero]
      rw [readWord_writeWords_ne]
      · simp
      · intro j hj e
        rw [← addr_succ] at e
        exact addr_ne a (j + 1) (by omega) (by simp at hlen; omega) e
    | succ k =>
      rw [addr_succ]
      simpa using ih (m.writeWord a v) (a + 1) (by simp at hlen; omega) k (by simpa using hk)

/-! ### The canonical form -/

theorem wf_erase (m : Memory) (k : Nat) (h : m.wf) : (m.erase k).wf :=
  ⟨h.1.filter _, fun c hc => h.2 c (List.mem_filter.mp hc).1⟩

theorem mem_insertCell (m : Memory) (k : Nat) (b : Byte) (c : Host.Cell) :
    c ∈ m.insertCell k b ↔ c = (k, b) ∨ c ∈ m := by
  induction m with
  | nil => simp [Memory.insertCell]
  | cons d m ih =>
    simp only [Memory.insertCell]
    split
    · simp
    · simp only [List.mem_cons, ih]
      tauto

theorem pairwise_insertCell (m : Memory) (k : Nat) (b : Byte)
    (h : m.Pairwise (fun c d => c.1 < d.1)) (hk : ∀ c ∈ m, c.1 ≠ k) :
    (m.insertCell k b).Pairwise (fun c d => c.1 < d.1) := by
  induction m with
  | nil => simp [Memory.insertCell]
  | cons d m ih =>
    rw [List.pairwise_cons] at h
    simp only [Memory.insertCell]
    split
    · rename_i hlt
      rw [List.pairwise_cons, List.pairwise_cons]
      refine ⟨?_, h⟩
      intro e he
      rcases List.mem_cons.mp he with rfl | he
      · exact hlt
      · exact Nat.lt_trans hlt (h.1 e he)
    · rename_i hnl
      rw [List.pairwise_cons]
      refine ⟨?_, ih h.2 (fun c hc => hk c (by simp [hc]))⟩
      intro e he
      rcases (mem_insertCell m k b e).mp he with rfl | he
      · have := hk d (by simp)
        simp only
        omega
      · exact h.1 e he

/-- A cell write keeps the canonical form. -/
theorem wf_writeByte (m : Memory) (k : Nat) (b : Byte) (h : m.wf) (hk : k < 131072) :
    (m.writeByte k b).wf := by
  simp only [Memory.writeByte]
  split
  · exact wf_erase m k h
  · rename_i hb
    have he := wf_erase m k h
    refine ⟨pairwise_insertCell _ _ _ he.1 (key_ne_of_mem_erase m k), ?_⟩
    intro c hc
    rcases (mem_insertCell _ _ _ _).mp hc with rfl | hc
    · exact ⟨hb, hk⟩
    · exact he.2 c hc

/-- A word write keeps the canonical form. -/
theorem wf_writeWord (m : Memory) (a v : Word) (h : m.wf) : (m.writeWord a v).wf := by
  have ha := a.isLt
  exact wf_writeByte _ _ _ (wf_writeByte _ _ _ h (by omega)) (by omega)

/-- Writing consecutive words keeps the canonical form. -/
theorem wf_writeWords (vs : List Word) (m : Memory) (a : Word) (h : m.wf) :
    (m.writeWords a vs).wf := by
  induction vs generalizing m a with
  | nil => exact h
  | cons v vs ih => exact ih _ _ (wf_writeWord m a v h)

/-! ### Which cells a write lists -/

theorem key_of_mem_writeByte (m : Memory) (k : Nat) (b : Byte) :
    ∀ c ∈ m.writeByte k b, c.1 = k ∨ c ∈ m := by
  intro c hc
  simp only [Memory.writeByte] at hc
  split at hc
  · exact .inr (List.mem_filter.mp hc).1
  · rcases (mem_insertCell _ _ _ _).mp hc with rfl | hc
    · exact .inl rfl
    · exact .inr (List.mem_filter.mp hc).1

/-- A word write lists only cells of its own word besides those listed before. -/
theorem key_of_mem_writeWord (m : Memory) (a v : Word) :
    ∀ c ∈ m.writeWord a v, c.1 / 2 = a.toNat ∨ c ∈ m := by
  intro c hc
  rcases key_of_mem_writeByte _ _ _ c hc with h | h
  · left; omega
  · rcases key_of_mem_writeByte _ _ _ c h with h | h
    · left; omega
    · exact .inr h

/-- Writing consecutive words lists only cells of those words besides those listed before. -/
theorem key_of_mem_writeWords (vs : List Word) (m : Memory) (a : Word) :
    ∀ c ∈ m.writeWords a vs,
      (∃ k < vs.length, c.1 / 2 = (a + BitVec.ofNat 16 k).toNat) ∨ c ∈ m := by
  induction vs generalizing m a with
  | nil => intro c hc; exact .inr hc
  | cons v vs ih =>
    intro c hc
    rcases ih (m.writeWord a v) (a + 1) c hc with ⟨k, hk, e⟩ | h
    · refine .inl ⟨k + 1, by simpa using hk, ?_⟩
      rw [e, addr_succ]
    · rcases key_of_mem_writeWord m a v c h with h | h
      · exact .inl ⟨0, by simp, by simpa using h⟩
      · exact .inr h

/-- Memory at reset is in canonical form. -/
theorem wf_reset : State.reset.mem.wf := by decide

end Sys2Proof.Machine
end

