-- ==== Sys2Proof/Laws/Ops.lean ====
section
/-! SUPPORT. For each shared operation, one lemma that says once everything it can do; later proofs
cite these and do not unfold the operation again. -/

namespace Sys2Proof.Machine

open Sys2Proof.Config

/-! ### Memory accesses -/

/-- `memRead` answers the word in range and F5 outside. -/
theorem memRead_eq (s : State) (a : Word) :
    memRead s a =
      if a.toNat < s.params.memWords then .ok (s.mem.readWord a)
      else .error (.memoryOutOfRange a) := rfl

theorem memRead_ok {s : State} {a w : Word} :
    memRead s a = .ok w ↔ a.toNat < s.params.memWords ∧ s.mem.readWord a = w := by
  rw [memRead_eq]
  split <;> simp_all

theorem memRead_of_lt {s : State} {a : Word} (h : a.toNat < s.params.memWords) :
    memRead s a = .ok (s.mem.readWord a) := memRead_ok.mpr ⟨h, rfl⟩

/-- `memWrite` in range writes the word and nothing else; outside it raises F5. -/
theorem memWrite_cases (a v : Word) (s : State) :
    (a.toNat < s.params.memWords ∧
      memWrite a v s = .done { s with mem := s.mem.writeWord a v }) ∨
    (¬ a.toNat < s.params.memWords ∧ memWrite a v s = .raised (.memoryOutOfRange a) s) := by
  by_cases h : a.toNat < s.params.memWords <;> simp [memWrite, h]

theorem memWrite_of_lt {a v : Word} {s : State} (h : a.toNat < s.params.memWords) :
    memWrite a v s = .done { s with mem := s.mem.writeWord a v } := by simp [memWrite, h]

@[simp] theorem memRead_endCall (s : State) (a : Word) : memRead (endCall s) a = memRead s a := by
  simp [memRead_eq]

/-! ### The DMA register bank -/

@[simp] theorem dmxRead_dmxWrite (i j : Fin 64) (v : Word) (s : State) :
    dmxRead (dmxWrite i v s) j = if j = i then v else dmxRead s j := by
  simp only [dmxRead, dmxWrite_dmx, Vector.get_eq_getElem, Vector.getElem_set, Fin.ext_iff]
  split <;> simp_all [eq_comm]

@[simp] theorem dmxRead_afterCond (c : Bool) (s : State) (i : Fin 64) :
    dmxRead (afterCond c s) i = dmxRead s i := by simp [dmxRead]

/-- The address entry of a pair is never its count entry. -/
theorem addrIndex_ne (i : Fin 64) : addrIndex i ≠ i := by
  revert i; decide

/-! ### Effects and the conditional rule -/

@[simp] theorem bind_done (s : State) (f : State → Effect) : (Effect.done s).bind f = f s := rfl

@[simp] theorem bind_raised (r : Fault) (s : State) (f : State → Effect) :
    (Effect.raised r s).bind f = .raised r s := rfl

@[simp] theorem settle_done (s : State) : (Effect.done s).settle = s := rfl

@[simp] theorem settle_raised (r : Fault) (s : State) : (Effect.raised r s).settle = raise r s := rfl

/-- An order answers one next state: that of its own part if the condition holds, else the advance. -/
theorem conditional_eq (c : Bool) (k : OrderKind) (s : State) (body : State → Effect) :
    conditional c k s body =
      .next (if condHolds c s then (body (afterCond c s)).settle
        else advance k (afterCond c s)) := rfl

@[simp] theorem condHolds_false (s : State) : condHolds false s = true := rfl

@[simp] theorem afterCond_false (s : State) : afterCond false s = s := rfl

/-! ### The backing store and the unit change -/

@[simp] theorem present_closeOpen (s : State) (u : UnitIndex) :
    present (closeOpen s) u = present s u := by simp [present, fileOf]

@[simp] theorem fileBytes_appendEvent (e : Event) (s : State) (u : UnitIndex) :
    fileBytes (appendEvent e s) u = fileBytes s u := rfl

@[simp] theorem present_selectUnit (s : State) (u v : UnitIndex) :
    present (selectUnit u s) v = present s v := rfl

@[simp] theorem present_afterCond (c : Bool) (s : State) (u : UnitIndex) :
    present (afterCond c s) u = present s u := by cases c <;> rfl

@[simp] theorem fileBytes_afterCond (c : Bool) (s : State) (u : UnitIndex) :
    fileBytes (afterCond c s) u = fileBytes s u := by cases c <;> rfl

/-- The events a close of the open file appends. -/
theorem closeOpen_events (s : State) :
    (closeOpen s).events = s.events ++ (s.openUnit.toList.map Event.closed) := by
  simp only [closeOpen]
  split <;> simp_all

/-- What a unit change can do: nothing where the unit's file is open, else the open file is closed
and the unit's file opens, or is absent and the controller is not ready (R148). -/
theorem changeUnit_cases (u : UnitIndex) (s : State) :
    (s.openUnit = some u ∧ changeUnit u s = s) ∨
    (s.openUnit ≠ some u ∧ present s u = true ∧ changeUnit u s =
      { s with
        openUnit := some u
        events := s.events ++ s.openUnit.toList.map Event.closed ++ [.opened u true]
        status := if s.params.nrClearOnSelect then s.status &&& ~~~s.params.notReadyMask
          else s.status }) ∨
    (s.openUnit ≠ some u ∧ present s u = false ∧ changeUnit u s =
      { s with
        openUnit := none
        events := s.events ++ s.openUnit.toList.map Event.closed ++ [.opened u false]
        status := s.status ||| s.params.notReadyMask }) := by
  by_cases h : s.openUnit = some u
  · exact .inl ⟨h, by simp [changeUnit, h]⟩
  · right
    cases hp : present s u
    · right
      refine ⟨h, rfl, ?_⟩
      cases ho : s.openUnit <;>
        simp_all [changeUnit, storeOpen, closeOpen, storeClose, setNotReady, appendEvent, present,
          fileOf]
    · left
      refine ⟨h, rfl, ?_⟩
      cases ho : s.openUnit <;>
        simp_all [changeUnit, storeOpen, closeOpen, storeClose, appendEvent, present, fileOf,
          statusOnOpen, clearNotReady] <;>
        split <;> simp_all

/-! ### The Read transfer -/

/-- `firstOutside` finds nothing exactly when all `n` addresses are below `MEM_WORDS`. -/
theorem firstOutside_none (m : Nat) (a : Word) (n : Nat) :
    firstOutside m a n = none ↔ ∀ k < n, (a + BitVec.ofNat 16 k).toNat < m := by
  induction n generalizing a with
  | zero => simp [firstOutside]
  | succ n ih =>
    simp only [firstOutside]
    constructor
    · intro h k hk
      split at h
      · cases k with
        | zero => simpa using ‹_›
        | succ k => rw [addr_succ]; exact (ih (a + 1)).mp h k (by omega)
      · cases h
    · intro h
      have h0 := h 0 (by omega)
      simp only [BitVec.add_zero] at h0
      rw [if_pos h0, ih]
      intro k hk
      rw [← addr_succ]
      exact h (k + 1) (by omega)

/-- `firstOutside` finds the first address at or above `MEM_WORDS`. -/
theorem firstOutside_some (m : Nat) (a x : Word) (n : Nat) :
    firstOutside m a n = some x ↔
      ∃ k < n, x = a + BitVec.ofNat 16 k ∧ m ≤ x.toNat ∧
        ∀ j < k, (a + BitVec.ofNat 16 j).toNat < m := by
  induction n generalizing a with
  | zero => simp [firstOutside]
  | succ n ih =>
    simp only [firstOutside]
    constructor
    · intro h
      split at h
      · rename_i h0
        obtain ⟨k, hk, e, hx, hj⟩ := (ih (a + 1)).mp h
        refine ⟨k + 1, by omega, by rw [addr_succ]; exact e, hx, ?_⟩
        intro j hjk
        cases j with
        | zero => simpa using h0
        | succ j => rw [addr_succ]; exact hj j (by omega)
      · rename_i h0
        cases h
        exact ⟨0, by omega, by simp, by omega, by omega⟩
    · rintro ⟨k, hk, e, hx, hj⟩
      cases k with
      | zero =>
        simp only [BitVec.add_zero] at e
        subst e
        rw [if_neg (by omega)]
      | succ k =>
        have h0 := hj 0 (by omega)
        simp only [BitVec.add_zero] at h0
        rw [if_pos h0, ih]
        refine ⟨k, by omega, by rw [← addr_succ]; exact e, hx, ?_⟩
        intro j hjk
        rw [← addr_succ]
        exact hj (j + 1) (by omega)

/-- The count of a transfer is at most 4096. -/
theorem dmaWordCount_le {p : ZeroCountPolicy} {c : Word} {n : Nat}
    (h : dmaWordCount p c = .ok n) : n ≤ 4096 := by
  simp only [dmaWordCount] at h
  split at h
  · cases h; omega
  · cases p <;> cases h <;> omega

/-- A count is refused in one way only (R59). -/
theorem dmaWordCount_error {p : ZeroCountPolicy} {c : Word} {r : Fault}
    (h : dmaWordCount p c = .error r) : r = .dmaZeroCount c := by
  simp only [dmaWordCount] at h
  split at h
  · cases h
  · cases p <;> cases h; rfl

/-- The words of `2n` bytes are `n`. -/
theorem length_wordsOfBytes (bs : List Byte) : (wordsOfBytes bs).length = bs.length / 2 := by
  induction bs using wordsOfBytes.induct with
  | case1 b b' bs ih => simp [wordsOfBytes, ih]; omega
  | case2 b => simp [wordsOfBytes]
  | case3 => simp [wordsOfBytes]

/-- Word `k` is formed from bytes `2k` and `2k + 1`, the first in bits [15:8] (R54). -/
theorem getElem_wordsOfBytes (bs : List Byte) (k : Nat) (hk : k < (wordsOfBytes bs).length)
    (h0 : 2 * k < bs.length) (h1 : 2 * k + 1 < bs.length) :
    (wordsOfBytes bs)[k] = (bs[2 * k] ++ bs[2 * k + 1] : BitVec (8 + 8)) := by
  induction bs using wordsOfBytes.induct generalizing k with
  | case1 b b' bs ih =>
    cases k with
    | zero => simp [wordsOfBytes]
    | succ k =>
      simp only [wordsOfBytes, List.getElem_cons_succ]
      rw [ih k (by simpa [wordsOfBytes] using hk) (by simp at h0; omega) (by simp at h1; omega)]
      rfl
  | case2 b => simp at h1
  | case3 => simp at h0

/-- What a Read transfer can do (R58): a count that is refused, a buffer word outside memory, a file
too short after its event, or the whole transfer. -/
theorem dmaTransfer_cases (i : Fin 64) (u : UnitIndex) (off : Nat) (s : State) :
    (∃ r, dmaWordCount s.params.zeroCountPolicy (dmxRead s i) = .error r ∧
      dmaTransfer i u off s = .raised r s) ∨
    (∃ n, dmaWordCount s.params.zeroCountPolicy (dmxRead s i) = .ok n ∧
      ((∃ a, firstOutside s.params.memWords (dmxRead s (addrIndex i)) n = some a ∧
          dmaTransfer i u off s = .raised (.memoryOutOfRange a) s) ∨
       (firstOutside s.params.memWords (dmxRead s (addrIndex i)) n = none ∧
          (fileBytes s u).length < off + 2 * n ∧
          dmaTransfer i u off s =
            .raised (.shortRead u off (2 * n)) (appendEvent (.readBytes u off (2 * n)) s)) ∨
       (firstOutside s.params.memWords (dmxRead s (addrIndex i)) n = none ∧
          off + 2 * n ≤ (fileBytes s u).length ∧
          dmaTransfer i u off s =
            .done (transferWrites i n (((fileBytes s u).drop off).take (2 * n))
              (appendEvent (.readBytes u off (2 * n)) s))))) := by
  simp only [dmaTransfer, storeRead, fileBytes_appendEvent]
  cases hc : dmaWordCount s.params.zeroCountPolicy (dmxRead s i) with
  | error r => exact .inl ⟨r, rfl, rfl⟩
  | ok n =>
    refine .inr ⟨n, rfl, ?_⟩
    cases ho : firstOutside s.params.memWords (dmxRead s (addrIndex i)) n with
    | some a => exact .inl ⟨a, rfl, by simp [ho]⟩
    | none =>
      right
      by_cases hl : off + 2 * n ≤ (fileBytes s u).length
      · exact .inr ⟨rfl, hl, by simp [ho, hl]⟩
      · exact .inl ⟨rfl, by omega, by simp [ho, hl]⟩

/-! ### Fetch and step -/

/-- A fetch that answers an order read every word of its slot from memory (R121). -/
theorem fetch_ok {s : State} {i : Instr} (h : fetch s = .ok i) :
    ∃ k, kindOf s.params.encoding.codes (codeField (s.mem.readWord s.oar)) = some k ∧
      s.oar.toNat < s.params.memWords ∧ (s.oar + 1).toNat < s.params.memWords ∧
      (k.size = 3 → (s.oar + 2).toNat < s.params.memWords) ∧
      i = decodeSlot s.params.encoding.layout k
        ⟨s.mem.readWord s.oar, s.mem.readWord (s.oar + 1),
          if k.size = 3 then s.mem.readWord (s.oar + 2) else 0⟩ := by
  unfold fetch at h
  split at h
  · cases h
  rename_i w0 h0
  obtain ⟨l0, rfl⟩ := memRead_ok.mp h0
  split at h
  · cases h
  rename_i k hk
  split at h
  · cases h
  rename_i w1 h1
  obtain ⟨l1, rfl⟩ := memRead_ok.mp h1
  split at h
  · rename_i h3
    split at h
    · cases h
    rename_i w2 h2
    obtain ⟨l2, rfl⟩ := memRead_ok.mp h2
    cases h
    exact ⟨k, hk, l0, l1, fun _ => l2, by rw [if_pos h3]⟩
  · rename_i h3
    cases h
    exact ⟨k, hk, l0, l1, fun e => absurd e h3, by rw [if_neg h3]⟩

/-- What a step that answers a next state can be. -/
theorem step_next_cases {s t : State} (h : step s = .next t) :
    (s.run = .running ∧ ∃ r, fetch s = .error r ∧ t = raise r s) ∨
    (s.run = .running ∧ ∃ i u, fetch s = .ok i ∧ exec i s = .next u ∧ t = endCall u) ∨
    (s.run = .idle ∧ s.inputs = [] ∧ t = s) ∨
    (s.run = .idle ∧ ∃ i rest, s.inputs = i :: rest ∧
      deliver i { s with inputs := rest } = .next t) := by
  unfold step at h
  split at h
  · rename_i hr
    simp only [orderStep] at h
    split at h
    · cases h
      exact .inl ⟨hr, _, ‹_›, rfl⟩
    · rename_i i hf
      right; left
      cases he : exec i s with
      | next u =>
        rw [he] at h
        cases h
        exact ⟨hr, i, u, hf, he, rfl⟩
      | fault r => rw [he] at h; cases h
      | refused r => rw [he] at h; cases h
  · rename_i hr
    simp only [idleStep] at h
    split at h
    · cases h
      exact .inr (.inr (.inl ⟨hr, ‹_›, rfl⟩))
    · exact .inr (.inr (.inr ⟨hr, _, _, ‹_›, h⟩))
  · cases h

/-- A step of an idle machine with something pending is what that input does (R14, R238). -/
theorem step_idle {s : State} {i : Input} {rest : List Input} (hr : s.run = .idle)
    (hi : s.inputs = i :: rest) : step s = deliver i { s with inputs := rest } := by
  have h : step s = idleStep s := by
    unfold step
    split
    · rename_i h
      rw [hr] at h
      cases h
    · rfl
    · rename_i h
      rw [hr] at h
      cases h
  rw [h]
  unfold idleStep
  split
  · rename_i h0
    rw [hi] at h0
    cases h0
  · rename_i h0
    rw [hi] at h0
    cases h0
    rfl

/-- What is true of a file in the store after the host set one: that file is as set, every other is as
it was (R60, R64). -/
theorem fileAt_setFile (dev : Nat) (u : Fin 4) (file : Option (List Byte)) (st : Store) (d v : Nat) :
    fileAt (setFile dev u file st) d v = if d = dev ∧ v = u.val then file else fileAt st d v := by
  have hins : ∀ (f : BackingFile) (l : Store),
      (∀ g ∈ l, ¬ (g.dev = f.dev ∧ g.unit.val = f.unit.val)) →
      fileAt (insertFile f l) d v =
        if d = f.dev ∧ v = f.unit.val then some f.bytes else fileAt l d v := by
    intro f l
    induction l with
    | nil =>
      intro _
      by_cases h : f.dev = d ∧ f.unit.val = v
      · obtain ⟨rfl, rfl⟩ := h
        simp [insertFile, fileAt]
      · have h' : ¬ (d = f.dev ∧ v = f.unit.val) := fun e => h ⟨e.1.symm, e.2.symm⟩
        simp [insertFile, fileAt, h']
        exact fun e1 e2 => h ⟨e1, e2⟩
    | cons g l ih =>
      intro hl
      have hg := hl g (by simp)
      have ih' := ih (fun x hx => hl x (by simp [hx]))
      simp only [insertFile]
      split
      · by_cases h : f.dev = d ∧ f.unit.val = v
        · obtain ⟨rfl, rfl⟩ := h
          simp [fileAt]
        · have h' : ¬ (d = f.dev ∧ v = f.unit.val) := fun e => h ⟨e.1.symm, e.2.symm⟩
          rw [if_neg h']
          have hb : (f.dev == d && f.unit.val == v) = false := by
            simpa using fun e1 e2 => h ⟨e1, e2⟩
          simp [fileAt, hb]
      · by_cases h : g.dev = d ∧ g.unit.val = v
        · have h' : ¬ (d = f.dev ∧ v = f.unit.val) := by
            rintro ⟨rfl, rfl⟩
            exact hg h
          rw [if_neg h']
          obtain ⟨rfl, rfl⟩ := h
          simp [fileAt]
        · have hb : (g.dev == d && g.unit.val == v) = false := by
            simpa using fun e1 e2 => h ⟨e1, e2⟩
          simpa [fileAt, hb] using ih'
  have hflt : fileAt (st.filter (fun f => !(f.dev == dev && f.unit.val == u.val))) d v =
      if d = dev ∧ v = u.val then none else fileAt st d v := by
    simp only [fileAt, List.find?_filter]
    split
    · rename_i h
      obtain ⟨rfl, rfl⟩ := h
      simp
      intro x _ h1 h2 h3
      exact h1.elim (fun e => e h2) (fun e => e h3)
    · rename_i h
      congr 2
      funext f
      by_cases hf : f.dev = d ∧ f.unit.val = v
      · obtain ⟨rfl, rfl⟩ := hf
        simpa using not_and_or.mp h
      · have : (f.dev == d && f.unit.val == v) = false := by
          simpa using fun e1 e2 => hf ⟨e1, e2⟩
        simp [this]
  cases file with
  | none => simpa [setFile] using hflt
  | some bytes =>
    simp only [setFile]
    have hne : ∀ g ∈ st.filter (fun f => !(f.dev == dev && f.unit.val == u.val)),
        ¬ (g.dev = dev ∧ g.unit.val = u.val) := by
      intro g hg
      simpa [← not_and_or] using (List.mem_filter.mp hg).2
    rw [hins _ _ hne, hflt]
    by_cases h : d = dev ∧ v = u.val <;> simp [h]

/-- Addressing a device: the instance in hand answers, or another one that is taken in hand, or there
is no instance at that address (R109). -/
theorem address_cases (dev : Nat) (s : State) :
    (dev = s.dev ∧ s.live = true ∧ address dev s = some s) ∨
    (¬ (dev = s.dev ∧ s.live = true) ∧ ∃ c ∈ s.others, c.dev = dev ∧
      address dev s = some (bringIn c s)) ∨
    (¬ (dev = s.dev ∧ s.live = true) ∧ (∀ c ∈ s.others, c.dev ≠ dev) ∧ address dev s = none) := by
  by_cases h : dev = s.dev ∧ s.live = true
  · exact .inl ⟨h.1, h.2, if_pos h⟩
  · right
    cases hf : s.others.find? (fun c => c.dev == dev) with
    | some c =>
      exact .inl ⟨h, c, List.mem_of_find?_eq_some hf,
        by simpa using List.find?_some hf, by simp [address, h, hf]⟩
    | none =>
      exact .inr ⟨h, by simpa using hf, by simp [address, h, hf]⟩

/-- The addressed instance is in hand and exists. -/
theorem address_some {dev : Nat} {s t : State} (h : address dev s = some t) :
    t.dev = dev ∧ t.live = true ∧ (t = s ∨ ∃ c ∈ s.others, t = bringIn c s) := by
  rcases address_cases dev s with ⟨h1, h2, e⟩ | ⟨-, c, hc, rfl, e⟩ | ⟨-, -, e⟩ <;> rw [e] at h <;>
    cases h
  · exact ⟨h1.symm, h2, .inl rfl⟩
  · exact ⟨rfl, rfl, .inr ⟨c, hc, rfl⟩⟩

/-- Whether there is an instance at an address does not depend on what is pending. -/
theorem address_none_inputs {dev : Nat} {s : State} (h : address dev s = none)
    (rest : List Input) : address dev { s with inputs := rest } = none := by
  simp only [address] at h ⊢
  split at h
  · cases h
  · rename_i hn
    rw [if_neg hn]
    simpa using h

/-- An instance exists in the machine after `c` was taken in hand exactly when it is `c` or existed at
another address. -/
theorem mem_allInstances_bringIn (c d : Controller) (s : State) :
    d ∈ allInstances (bringIn c s) ↔ d = c ∨ (d ∈ allInstances s ∧ d.dev ≠ c.dev) := by
  simp [allInstances]

/-- A call to a device that is no disk controller raises F3, or changes at most what the devices and
the CPU have: no controller field, no memory, no DMA register, no file and no parameter. -/
theorem deviceCall_cases (cls : IoClass) (fn dev : Nat) (s : State) :
    deviceCall cls fn dev s = raise (.unsupportedFunction cls fn dev) s ∨
    ∃ acc keys pc consoleIn consoleOut panel draws inputs, deviceCall cls fn dev s =
      { s with
        acc := acc, keys := keys, pc := pc, consoleIn := consoleIn, consoleOut := consoleOut
        panel := panel, draws := draws, inputs := inputs } := by
  have hs : ∀ t : State, successSkip t =
      { t with keys := (successSkip t).keys, pc := (successSkip t).pc } := by
    intro t
    simp only [successSkip]
    split <;> rfl
  have hi : ∀ (b : Bool) (t : State), signalIf b t =
      { t with keys := (signalIf b t).keys, pc := (signalIf b t).pc } := by
    intro b t
    cases b
    · rfl
    · exact hs t
  simp only [deviceCall]
  repeat' split
  all_goals first
    | exact .inl rfl
    | right
  · cases cls
    · exact ⟨_, _, _, _, _, _, _, _, hi _ _⟩
    · exact ⟨_, _, _, _, _, _, _, _, hi _ _⟩
    · simp only [consoleCall, consoleInput]
      repeat' split
      all_goals first
        | exact ⟨_, _, _, _, _, _, _, _, hs _⟩
        | exact ⟨_, _, _, _, _, _, _, _, rfl⟩
    · exact ⟨_, _, _, _, _, _, _, _, hs _⟩
  · cases cls <;> exact ⟨_, _, _, _, _, _, _, _, rfl⟩
  · cases cls
    · exact ⟨_, _, _, _, _, _, _, _, hi _ _⟩
    · exact ⟨_, _, _, _, _, _, _, _, hi _ _⟩
    · exact ⟨_, _, _, _, _, _, _, _, hs _⟩
    · exact ⟨_, _, _, _, _, _, _, _, hs _⟩

/-- What a dispatch call can do (R102, R106, R108, R109). -/
theorem dispatch_cases (cls : IoClass) (fn dev : Nat) (s : State) :
    (∃ t, address dev s = some t ∧ cls = .output ∧ fn = s.params.loadOarFn ∧
      dispatch cls fn dev s = loadOar t) ∨
    (∃ t, address dev s = some t ∧ (cls ≠ .output ∨ fn ≠ s.params.loadOarFn) ∧
      dispatch cls fn dev s = raise (.unsupportedFunction cls fn dev) t) ∨
    (address dev s = none ∧ dispatch cls fn dev s = deviceCall cls fn dev s) := by
  cases ha : address dev s with
  | none => exact .inr (.inr ⟨rfl, by simp only [dispatch, ha]⟩)
  | some t =>
    have hp : t.params = s.params := by
      rcases (address_some ha).2.2 with rfl | ⟨c, -, rfl⟩ <;> rfl
    by_cases h : cls = .output ∧ fn = s.params.loadOarFn
    · exact .inl ⟨t, rfl, h.1, h.2, by simp only [dispatch, ha, diskCall, hp, h, and_self, if_true]⟩
    · refine .inr (.inl ⟨t, rfl, ?_, by simp only [dispatch, ha, diskCall, hp, if_neg h]⟩)
      by_cases hc : cls = .output
      · exact .inr (fun hf => h ⟨hc, hf⟩)
      · exact .inl hc

/-- What an input that answers a next state can do. -/
theorem deliver_next_cases {i : Input} {s t : State} (h : deliver i s = .next t) :
    (∃ cls fn dev, i = .call cls fn dev ∧ t = dispatch cls fn dev s) ∨
    (∃ a v, i = .cpuMem a v ∧ a.toNat < s.params.memWords ∧
      t = { s with mem := s.mem.writeWord a v }) ∨
    (∃ j v, i = .cpuDmx j v ∧ t = dmxWrite j v s) ∨
    (∃ v, i = .cpuAcc v ∧ t = { s with acc := v }) ∨
    (∃ v, i = .cpuKeys v ∧ t = { s with keys := v }) ∨
    (∃ v, i = .cpuPc v ∧ t = { s with pc := v }) ∨
    (∃ d u f, i = .hostFile d u f ∧ t = { s with store := setFile d u f s.store }) ∨
    (∃ b, i = .consoleKey b ∧ t = { s with consoleIn := s.consoleIn ++ [b] }) ∨
    (∃ d, i = .construct d ∧ t = construct d s) ∨
    (∃ d, i = .teardown d ∧ t = teardown d s) := by
  cases i <;> simp_all [deliver, eq_comm]
  · simp only [cpuStore] at h
    split at h <;> simp_all

end Sys2Proof.Machine
end

