-- ==== Sys2Proof/Laws/Exec.lean ====
section
/-! SUPPORT. What executing an order can do, said once. `Ran i s t` lists, case by case, the state `t`
that the own part of the order `i` leaves when it runs in `s` (its flag's draw already taken);
`exec_next_cases` says that every `exec` is a skip or such a run. Frames and invariants follow by cases
on these, with no meaning unfolded again. -/

namespace Sys2Proof.Machine

open Sys2Proof.Config

/-- The own part of order `i` run in `s` leaves `t`. -/
inductive Ran : Instr → State → State → Prop
  | halt (c : Bool) (s : State) : Ran (.halt c) s { s with run := .idle }
  | format (c : Bool) (rs : BitVec 4) (tr : BitVec 10) (h : BitVec 6) (n : BitVec 8) (s : State) :
      Ran (.format c rs tr h n) s (advance .format s)
  | seek (c : Bool) (tr : BitVec 10) (re cl : Bool) (s : State) :
      Ran (.seek c tr re cl) s (advance .seek s)
  | write (c : Bool) (rs : BitVec 4) (tr : BitVec 10) (h : BitVec 6) (r : BitVec 8) (s : State) :
      Ran (.write c rs tr h r) s (advance .write s)
  | stall (c : Bool) (s : State) : Ran (.stall c) s (advance .stall s)
  | jump (c : Bool) (a : Word) (s : State) : Ran (.jump c a) s { s with oar := a }
  | interrupt (c : Bool) (v : Word) (s : State) :
      Ran (.interrupt c v) s (raise (.interruptOrder v s.oar) s)
  | selDma (c : Bool) (ch : Word) (n : BitVec 4) (s : State) :
      Ran (.selDma c ch n) s (advance .selDma { s with dmaChan := some ch, dmaNch := n })
  | stStatus (c : Bool) (a : Word) (s : State) (h : a.toNat < s.params.memWords) :
      Ran (.stStatus c a) s (advance .stStatus { s with mem := s.mem.writeWord a s.status })
  | stStatusOutside (c : Bool) (a : Word) (s : State) (h : ¬ a.toNat < s.params.memWords) :
      Ran (.stStatus c a) s (raise (.memoryOutOfRange a) s)
  | stOar (c : Bool) (a : Word) (s : State) (h : a.toNat < s.params.memWords) :
      Ran (.stOar c a) s (advance .stOar
        { s with mem := s.mem.writeWord a (storeOarWord s.params.storeOarValue s.oar) })
  | stOarOutside (c : Bool) (a : Word) (s : State) (h : ¬ a.toNat < s.params.memWords) :
      Ran (.stOar c a) s (raise (.memoryOutOfRange a) s)
  | selUnit (c : Bool) (f : BitVec 4) (u : UnitIndex) (s : State)
      (h : unitIndex s.params.unitFieldPolicy f = .ok u) :
      Ran (.selUnit c f) s (advance .selUnit (changeUnit u (selectUnit u s)))
  | selUnitBad (c : Bool) (f : BitVec 4) (s : State)
      (h : unitIndex s.params.unitFieldPolicy f = .error (.badUnitField f)) :
      Ran (.selUnit c f) s (raise (.badUnitField f) s)
  | readNotReady (c : Bool) (rs : BitVec 4) (tr : BitVec 10) (h : BitVec 6) (r : BitVec 8)
      (s : State) (ho : s.openUnit = none) :
      Ran (.read c rs tr h r) s (advance .read (setNotReady s))
  | readNoChannel (c : Bool) (rs : BitVec 4) (tr : BitVec 10) (h : BitVec 6) (r : BitVec 8)
      (s : State) (u : UnitIndex) (ho : s.openUnit = some u) (hd : s.dmaChan = none) :
      Ran (.read c rs tr h r) s (raise (.dmaNotSelected s.oar) s)
  | readZeroCount (c : Bool) (rs : BitVec 4) (tr : BitVec 10) (h : BitVec 6) (r : BitVec 8)
      (s : State) (u : UnitIndex) (ch : Word) (ho : s.openUnit = some u)
      (hd : s.dmaChan = some ch)
      (hc : dmaWordCount s.params.zeroCountPolicy (dmxRead s (pairIndex ch)) =
        .error (.dmaZeroCount (dmxRead s (pairIndex ch)))) :
      Ran (.read c rs tr h r) s (raise (.dmaZeroCount (dmxRead s (pairIndex ch))) s)
  | readOutside (c : Bool) (rs : BitVec 4) (tr : BitVec 10) (h : BitVec 6) (r : BitVec 8)
      (s : State) (u : UnitIndex) (ch a : Word) (n : Nat) (ho : s.openUnit = some u)
      (hd : s.dmaChan = some ch)
      (hc : dmaWordCount s.params.zeroCountPolicy (dmxRead s (pairIndex ch)) = .ok n)
      (ha : firstOutside s.params.memWords (dmxRead s (addrIndex (pairIndex ch))) n = some a) :
      Ran (.read c rs tr h r) s (raise (.memoryOutOfRange a) s)
  | readShort (c : Bool) (rs : BitVec 4) (tr : BitVec 10) (h : BitVec 6) (r : BitVec 8)
      (s : State) (u : UnitIndex) (ch : Word) (n : Nat) (ho : s.openUnit = some u)
      (hd : s.dmaChan = some ch)
      (hc : dmaWordCount s.params.zeroCountPolicy (dmxRead s (pairIndex ch)) = .ok n)
      (ha : firstOutside s.params.memWords (dmxRead s (addrIndex (pairIndex ch))) n = none)
      (hl : (fileBytes s u).length < chsOffset tr h r + 2 * n) :
      Ran (.read c rs tr h r) s (raise (.shortRead u (chsOffset tr h r) (2 * n))
        (appendEvent (.readBytes u (chsOffset tr h r) (2 * n)) s))
  | read (c : Bool) (rs : BitVec 4) (tr : BitVec 10) (h : BitVec 6) (r : BitVec 8)
      (s : State) (u : UnitIndex) (ch : Word) (n : Nat) (ho : s.openUnit = some u)
      (hd : s.dmaChan = some ch)
      (hc : dmaWordCount s.params.zeroCountPolicy (dmxRead s (pairIndex ch)) = .ok n)
      (ha : firstOutside s.params.memWords (dmxRead s (addrIndex (pairIndex ch))) n = none)
      (hl : chsOffset tr h r + 2 * n ≤ (fileBytes s u).length) :
      Ran (.read c rs tr h r) s (advance .read (transferWrites (pairIndex ch) n
        (((fileBytes s u).drop (chsOffset tr h r)).take (2 * n))
        (appendEvent (.readBytes u (chsOffset tr h r) (2 * n)) s)))

/-- A conditional rule answers a skip or the settled own part. -/
theorem conditional_next {c : Bool} {k : OrderKind} {s t : State} {body : State → Effect}
    (h : conditional c k s body = .next t) :
    (condHolds c s = false ∧ t = advance k (afterCond c s)) ∨
    (condHolds c s = true ∧ t = (body (afterCond c s)).settle) := by
  rw [conditional_eq] at h
  cases h
  cases condHolds c s <;> simp

theorem unitIndex_error {p : UnitFieldPolicy} {f : BitVec 4} {r : Fault}
    (h : unitIndex p f = .error r) : r = .badUnitField f := by
  cases p with
  | literal => cases h
  | fault =>
    simp only [unitIndex] at h
    split at h
    · cases h
    · cases h; rfl

theorem ran_selUnit (c : Bool) (f : BitVec 4) (s : State) :
    Ran (.selUnit c f) s
      (match unitIndex s.params.unitFieldPolicy f with
        | .error r => Effect.raised r s
        | .ok u => Effect.done
            (advance .selUnit (changeUnit u (selectUnit u s)))).settle := by
  cases hu : unitIndex s.params.unitFieldPolicy f with
  | ok u => exact .selUnit c f u s hu
  | error r =>
    obtain rfl := unitIndex_error hu
    exact .selUnitBad c f s hu

theorem ran_stStatus (c : Bool) (a : Word) (s : State) :
    Ran (.stStatus c a) s
      ((memWrite a s.status s).bind (fun s => .done (advance .stStatus s))).settle := by
  rcases memWrite_cases a s.status s with ⟨h, e⟩ | ⟨h, e⟩ <;> rw [e]
  · exact .stStatus c a s h
  · exact .stStatusOutside c a s h

theorem ran_stOar (c : Bool) (a : Word) (s : State) :
    Ran (.stOar c a) s
      ((memWrite a (storeOarWord s.params.storeOarValue s.oar) s).bind
        (fun s => .done (advance .stOar s))).settle := by
  rcases memWrite_cases a (storeOarWord s.params.storeOarValue s.oar) s with ⟨h, e⟩ | ⟨h, e⟩ <;>
    rw [e]
  · exact .stOar c a s h
  · exact .stOarOutside c a s h

theorem ran_read (c : Bool) (rs : BitVec 4) (tr : BitVec 10) (h : BitVec 6) (r : BitVec 8)
    (s : State) :
    Ran (.read c rs tr h r) s
      (match s.openUnit with
        | none => Effect.done (advance .read (setNotReady s))
        | some u => (readTransfer u tr h r s).bind (fun s => .done (advance .read s))).settle := by
  cases ho : s.openUnit with
  | none => exact .readNotReady c rs tr h r s ho
  | some u =>
    simp only [readTransfer]
    cases hd : s.dmaChan with
    | none => exact .readNoChannel c rs tr h r s u ho hd
    | some ch =>
      simp only
      rcases dmaTransfer_cases (pairIndex ch) u (chsOffset tr h r) s with
        ⟨f, hc, e⟩ | ⟨n, hc, ⟨a, ha, e⟩ | ⟨ha, hl, e⟩ | ⟨ha, hl, e⟩⟩ <;> rw [e]
      · obtain rfl := dmaWordCount_error hc
        exact .readZeroCount c rs tr h r s u ch ho hd hc
      · exact .readOutside c rs tr h r s u ch a n ho hd hc ha
      · exact .readShort c rs tr h r s u ch n ho hd hc ha hl
      · exact .read c rs tr h r s u ch n ho hd hc ha hl

/-- The conditional rule of an order whose own part is known. -/
theorem conditional_ran {i : Instr} {s t : State} {body : State → Effect}
    (h : conditional i.cond i.kind s body = .next t)
    (hb : Ran i (afterCond i.cond s) (body (afterCond i.cond s)).settle) :
    (condHolds i.cond s = false ∧ t = advance i.kind (afterCond i.cond s)) ∨
    (condHolds i.cond s = true ∧ Ran i (afterCond i.cond s) t) :=
  by
  rcases conditional_next h with e | ⟨e, rfl⟩
  · exact .inl e
  · exact .inr ⟨e, hb⟩

/-- Every `exec` that answers a next state skipped the order or ran its own part. -/
theorem exec_next_cases {i : Instr} {s t : State} (h : exec i s = .next t) :
    (condHolds i.cond s = false ∧ t = advance i.kind (afterCond i.cond s)) ∨
    (condHolds i.cond s = true ∧ Ran i (afterCond i.cond s) t) := by
  cases i with
  | halt c =>
    simp only [exec, execHalt] at h
    exact conditional_ran (i := .halt c) h (.halt c _)
  | format c rs tr hd n =>
    simp only [exec, execFormat] at h
    exact conditional_ran (i := .format c rs tr hd n) h (.format c rs tr hd n _)
  | seek c tr re cl =>
    simp only [exec, execSeek] at h
    exact conditional_ran (i := .seek c tr re cl) h (.seek c tr re cl _)
  | write c rs tr hd r =>
    simp only [exec, execWrite] at h
    exact conditional_ran (i := .write c rs tr hd r) h (.write c rs tr hd r _)
  | stall c =>
    simp only [exec, execStall] at h
    exact conditional_ran (i := .stall c) h (.stall c _)
  | jump c a =>
    simp only [exec, execJump] at h
    exact conditional_ran (i := .jump c a) h (.jump c a _)
  | interrupt c v =>
    simp only [exec, execInterrupt] at h
    exact conditional_ran (i := .interrupt c v) h (.interrupt c v _)
  | selDma c ch n =>
    simp only [exec, execSelDma] at h
    exact conditional_ran (i := .selDma c ch n) h (.selDma c ch n _)
  | stStatus c a =>
    simp only [exec, execStStatus] at h
    exact conditional_ran (i := .stStatus c a) h (ran_stStatus c a _)
  | stOar c a =>
    simp only [exec, execStOar] at h
    exact conditional_ran (i := .stOar c a) h (ran_stOar c a _)
  | read c rs tr hd r =>
    simp only [exec, execRead] at h
    exact conditional_ran (i := .read c rs tr hd r) h (ran_read c rs tr hd r _)
  | selUnit c f =>
    simp only [exec, execSelUnit] at h
    exact conditional_ran (i := .selUnit c f) h (ran_selUnit c f _)

end Sys2Proof.Machine
end

