-- ==== Sys2Proof/Laws/Instances.lean ====
section
/-! SUPPORT. What a step does to the controller instances, said once: an invariant of a controller's
own state needs to be shown of the running instance, of a new one and of a teardown only. -/

namespace Sys2Proof.Machine

open Sys2Proof.Config

/-- A controller record of the machine after `c` was taken in hand is `c` or was there before. -/
theorem mem_controllers_bringIn {c d : Controller} {s : State}
    (h : d ∈ (bringIn c s).controllers) : d = c ∨ d ∈ s.controllers := by
  simp only [State.controllers, inHand_bringIn, bringIn_others, List.mem_cons,
    List.mem_filter] at h
  rcases h with rfl | ⟨h, -⟩
  · exact .inl rfl
  · right
    simp only [allInstances] at h
    split at h
    · exact h
    · exact List.mem_cons_of_mem _ h

/-- Addressing a device adds no controller record. -/
theorem mem_controllers_address {dev : Nat} {s t : State} (h : address dev s = some t)
    {c : Controller} (hc : c ∈ t.controllers) : c ∈ s.controllers := by
  rcases (address_some h).2.2 with rfl | ⟨d, hd, rfl⟩
  · exact hc
  · rcases mem_controllers_bringIn hc with rfl | hc
    · exact List.mem_cons_of_mem _ hd
    · exact hc

/-- A property of single controllers that does not look at the OAR and the run state holds of every
controller record after a step, if it did before, a running step keeps it for the instance in hand and
leaves the others, a new controller has it and a teardown keeps it. -/
theorem controllers_of_step {Q : Controller → Prop} {s t : State}
    (hctl : ∀ c a r, Q c → Q { c with oar := a, run := r })
    (hnew : ∀ d, Q (newController d s.params.statusReset))
    (hclose : ∀ u : State, Q (inHand u) → Q (inHand (closeOpen u)))
    (hrun : s.run = .running → Q (inHand s) → Q (inHand t) ∧ t.others = s.others)
    (hI : ∀ c ∈ s.controllers, Q c) (h : step s = .next t) : ∀ c ∈ t.controllers, Q c := by
  have start : ∀ {u : State} (a : Word) (r : RunState), (∀ c ∈ u.controllers, Q c) →
      ∀ c ∈ ({ u with oar := a, run := r } : State).controllers, Q c := by
    intro u a r hu c hc
    rcases List.mem_cons.mp hc with rfl | hc
    · exact hctl (inHand u) a r (hu _ (.head _))
    · exact hu c (.tail _ hc)
  have addr : ∀ {dev : Nat} {rest : List Input} {u : State},
      address dev { s with inputs := rest } = some u → ∀ c ∈ u.controllers, Q c :=
    fun hu c hc => hI c (mem_controllers_address hu hc)
  by_cases hr : s.run = .running
  · obtain ⟨h1, h2⟩ := hrun hr (hI _ (.head _))
    intro c hc
    rcases List.mem_cons.mp hc with rfl | hc
    · exact h1
    · exact hI c (.tail _ (h2 ▸ hc))
  rcases step_next_cases h with ⟨e, -⟩ | ⟨e, -⟩ | ⟨-, -, rfl⟩ | ⟨-, i, rest, -, hd⟩
  · exact absurd e hr
  · exact absurd e hr
  · exact hI
  rcases deliver_next_cases hd with ⟨cls, fn, dev, -, rfl⟩ | ⟨a, v, -, -, rfl⟩ | ⟨j, v, -, rfl⟩ |
    ⟨v, -, rfl⟩ | ⟨v, -, rfl⟩ | ⟨v, -, rfl⟩ | ⟨d, u, f, -, rfl⟩ | ⟨b, -, rfl⟩ | ⟨d, -, rfl⟩ |
    ⟨d, -, rfl⟩
  · rcases dispatch_cases cls fn dev { s with inputs := rest } with
      ⟨u, hu, -, -, e⟩ | ⟨u, hu, -, e⟩ | ⟨-, e⟩ <;> rw [e]
    · exact start u.acc .running (addr hu)
    · exact start u.oar _ (addr hu)
    · rcases deviceCall_cases cls fn dev { s with inputs := rest } with
        e | ⟨_, _, _, _, _, _, _, _, e⟩ <;> rw [e]
      · exact start (u := s) s.oar _ hI
      · exact hI
  · exact hI
  · exact hI
  · exact hI
  · exact hI
  · exact hI
  · exact hI
  · exact hI
  · intro c hc
    rcases mem_controllers_bringIn hc with rfl | hc
    · exact hnew d
    · exact hI c hc
  · simp only [teardown]
    split
    · rename_i u hu
      intro c hc
      simp only [State.controllers, closeOpen_others] at hc
      rcases List.mem_cons.mp hc with rfl | hc
      · exact hclose u (addr hu _ (.head _))
      · exact addr hu c (.tail _ hc)
    · exact hI

end Sys2Proof.Machine
end

