-- ==== Sys2Proof/Laws/PerInstr.lean ====
section
/-! SUPPORT. A statement made per instruction: the words of an order are as many as its size, and its
first word holds the code of its kind and its flag (R80, R81, R94), whatever its operands. -/

namespace Sys2Proof.Laws.EncodedHead

open Sys2Proof.Config

/-- The encoding of an order has the order's size, and its first word its code and flag. -/
def Statement (i : Instr) : Prop :=
  ∀ e : Encoding, i.WellFormed e →
    (encode e i).length = i.size ∧
    codeField (encodeSlot e i).w0 = e.codes.codeOf i.kind ∧
    condFlag (encodeSlot e i).w0 = i.cond

theorem head_of_transfer {l : TransferLayout} (hl : l.wf = true) (s : Slot) (rs : BitVec 4)
    (t : BitVec 10) (h : BitVec 6) (r : BitVec 8) :
    codeField (s.putTransfer l rs t h r).w0 = codeField s.w0 ∧
    condFlag (s.putTransfer l rs t h r).w0 = condFlag s.w0 := by
  simp only [TransferLayout.wf, Bool.and_eq_true, decide_eq_true_eq] at hl
  obtain ⟨⟨⟨f1, f2, f3, f4⟩, -⟩, -⟩ := hl
  simp only [Slot.putTransfer]
  rw [codeField_put _ _ _ f4, codeField_put _ _ _ f3, codeField_put _ _ _ f2,
    codeField_put _ _ _ f1, condFlag_put _ _ _ f4, condFlag_put _ _ _ f3, condFlag_put _ _ _ f2,
    condFlag_put _ _ _ f1]
  exact ⟨rfl, rfl⟩

theorem head_of_field {n size : Nat} {p : FieldPos} (hf : p.Fits n size) (code : BitVec 4)
    (c : Bool) (v : BitVec n) :
    codeField ((baseSlot code c).put p v).w0 = code ∧
    condFlag ((baseSlot code c).put p v).w0 = c := by
  rw [codeField_put _ _ _ hf, condFlag_put _ _ _ hf]
  simp

theorem halt (c : Bool) : Statement (.halt c) := fun _ _ =>
  ⟨rfl, codeField_baseSlot _ _, condFlag_baseSlot _ _⟩

theorem format (c : Bool) (rs : BitVec 4) (t : BitVec 10) (h : BitVec 6) (n : BitVec 8) :
    Statement (.format c rs t h n) := by
  intro e hw
  have hh := head_of_transfer hw.2 (baseSlot (e.codes.codeOf .format) c) rs t h n
  exact ⟨rfl, hh.1.trans (codeField_baseSlot _ _), hh.2.trans (condFlag_baseSlot _ _)⟩

theorem seek (c : Bool) (t : BitVec 10) (re cl : Bool) : Statement (.seek c t re cl) := by
  intro e hw
  have hl : e.layout.seek.wf = true := hw.2
  simp only [SeekLayout.wf, Bool.and_eq_true, decide_eq_true_eq] at hl
  obtain ⟨⟨f1, f2, f3⟩, -⟩ := hl
  refine ⟨rfl, ?_, ?_⟩
  · simp only [encodeSlot, putFields]
    rw [codeField_put _ _ _ f3, codeField_put _ _ _ f2]
    exact (head_of_field f1 _ _ _).1
  · simp only [encodeSlot, putFields]
    rw [condFlag_put _ _ _ f3, condFlag_put _ _ _ f2]
    exact (head_of_field f1 _ _ _).2

theorem selUnit (c : Bool) (f : BitVec 4) : Statement (.selUnit c f) := fun _ hw =>
  have hf := of_decide_eq_true hw.2
  ⟨rfl, (head_of_field hf _ _ _).1, (head_of_field hf _ _ _).2⟩

theorem read (c : Bool) (rs : BitVec 4) (t : BitVec 10) (h : BitVec 6) (r : BitVec 8) :
    Statement (.read c rs t h r) := by
  intro e hw
  have hh := head_of_transfer hw.2 (baseSlot (e.codes.codeOf .read) c) rs t h r
  exact ⟨rfl, hh.1.trans (codeField_baseSlot _ _), hh.2.trans (condFlag_baseSlot _ _)⟩

theorem write (c : Bool) (rs : BitVec 4) (t : BitVec 10) (h : BitVec 6) (r : BitVec 8) :
    Statement (.write c rs t h r) := by
  intro e hw
  have hh := head_of_transfer hw.2 (baseSlot (e.codes.codeOf .write) c) rs t h r
  exact ⟨rfl, hh.1.trans (codeField_baseSlot _ _), hh.2.trans (condFlag_baseSlot _ _)⟩

theorem stall (c : Bool) : Statement (.stall c) := fun _ _ =>
  ⟨rfl, codeField_baseSlot _ _, condFlag_baseSlot _ _⟩

theorem stStatus (c : Bool) (a : Word) : Statement (.stStatus c a) := fun _ hw =>
  have hf := of_decide_eq_true hw.2
  ⟨rfl, (head_of_field hf _ _ _).1, (head_of_field hf _ _ _).2⟩

theorem stOar (c : Bool) (a : Word) : Statement (.stOar c a) := fun _ hw =>
  have hf := of_decide_eq_true hw.2
  ⟨rfl, (head_of_field hf _ _ _).1, (head_of_field hf _ _ _).2⟩

theorem selDma (c : Bool) (ch : Word) (n : BitVec 4) : Statement (.selDma c ch n) := by
  intro e hw
  obtain ⟨f1, f2, -⟩ := of_decide_eq_true hw.2
  refine ⟨rfl, ?_, ?_⟩
  · simp only [encodeSlot, putFields]
    rw [codeField_put _ _ _ f2]
    exact (head_of_field f1 _ _ _).1
  · simp only [encodeSlot, putFields]
    rw [condFlag_put _ _ _ f2]
    exact (head_of_field f1 _ _ _).2

theorem interrupt (c : Bool) (v : Word) : Statement (.interrupt c v) := fun _ hw =>
  have hf := of_decide_eq_true hw.2
  ⟨rfl, (head_of_field hf _ _ _).1, (head_of_field hf _ _ _).2⟩

theorem jump (c : Bool) (a : Word) : Statement (.jump c a) := fun _ hw =>
  have hf := of_decide_eq_true hw.2
  ⟨rfl, (head_of_field hf _ _ _).1, (head_of_field hf _ _ _).2⟩

end Sys2Proof.Laws.EncodedHead
end

