-- ==== Sys2Proof/Tests/Slice0.lean ====
section
/-! SUPPORT. The model's own tests, each one step on a small state, with the expected values of
spec/95_test_vectors.md and of the rules' examples; ill-formed encodings and parameters, which the
checks refuse; words written out from the spec's encodings; and for every statement with hypotheses a
concrete state and operands that meet them. -/

namespace Sys2Proof.Tests

open Sys2Proof.Config Sys2Proof.Machine

/-! ### Well-formedness: each check refuses -/

theorem test_standard_is_wellFormed : Params.standard.WellFormed := by decide

theorem test_refuses_shared_code :
    ¬ OrderCode.WellFormed { OrderCode.standard with jump := 0 } := by decide

theorem test_refuses_no_memory : ¬ Params.WellFormed { Params.standard with memWords := 0 } := by
  decide

theorem test_refuses_too_much_memory :
    ¬ Params.WellFormed { Params.standard with memWords := 65537 } := by decide

theorem test_refuses_field_beyond_word :
    ({ FieldLayout.standard with jumpTarget := ⟨1, 1⟩ } : FieldLayout).wfFor .jump = false := by
  decide

theorem test_refuses_field_beyond_slot :
    ({ FieldLayout.standard with unitfield := ⟨2, 0⟩ } : FieldLayout).wfFor .selUnit = false := by
  decide

theorem test_refuses_field_on_flag :
    ({ FieldLayout.standard with unitfield := ⟨0, 8⟩ } : FieldLayout).wfFor .selUnit = false := by
  decide

theorem test_refuses_full_word_in_w0 :
    ({ FieldLayout.standard with vector := ⟨0, 0⟩ } : FieldLayout).wfFor .interrupt = false ∧
    ({ FieldLayout.standard with statusTarget := ⟨0, 0⟩ } : FieldLayout).wfFor .stStatus = false ∧
    ({ FieldLayout.standard with oarTarget := ⟨0, 0⟩ } : FieldLayout).wfFor .stOar = false := by
  decide

theorem test_refuses_transfer_overlap :
    TransferLayout.wf { FieldLayout.standard.transfer with sector := ⟨2, 5⟩ } = false ∧
    TransferLayout.wf { FieldLayout.standard.transfer with track := ⟨0, 0⟩ } = false ∧
    TransferLayout.wf { FieldLayout.standard.transfer with sector := ⟨2, 9⟩ } = false := by decide

theorem test_refuses_seek_overlap :
    SeekLayout.wf { FieldLayout.standard.seek with restore := ⟨1, 9⟩ } = false ∧
    SeekLayout.wf { FieldLayout.standard.seek with restore := ⟨1, 14⟩ } = false ∧
    SeekLayout.wf { FieldLayout.standard.seek with clear := ⟨1, 16⟩ } = false := by decide

theorem test_refuses_selDma_overlap :
    ({ FieldLayout.standard with dmaNch := ⟨1, 12⟩ } : FieldLayout).wfFor .selDma = false := by
  decide

theorem test_refuses_instr_without_own_code :
    ¬ Instr.WellFormed { Encoding.standard with codes := { OrderCode.standard with halt := 13 } }
      (.jump false 0x50) := by decide

/-! ### Decoding: words from the spec's encodings (spec 95, V-ENC; R83 to R93) -/

/-- V-ENC-1, V-ENC-2. -/
theorem test_decode_halt :
    (decode .standard [0b0000000000000000, 0]).order? = some (.halt false) ∧
    (decode .standard [0b0000100000000000, 0]).order? = some (.halt true) := by decide

/-- V-ENC-3, R84: count in `w2[15:8]`. -/
theorem test_decode_format :
    (decode .standard [0b0010000000000000, 0, 0b0000100100000000]).order? =
      some (.format false 0 0 0 9) := by decide

/-- V-ENC-4, V-ENC-5, and the restore flag alone (R99). -/
theorem test_decode_seek :
    (decode .standard [0b0011000000000000, 0b0000000000000101]).order? =
      some (.seek false 5 false false) ∧
    (decode .standard [0b0011000000000000, 0b1100001111111111]).order? =
      some (.seek false 1023 true true) ∧
    (decode .standard [0b0011000000000000, 0b1000000000000000]).order? =
      some (.seek false 0 true false) := by decide

/-- V-ENC-6, V-ENC-7: bits [15:4] of `w1` are ignored. -/
theorem test_decode_selUnit :
    (decode .standard [0b0100000000000000, 0b0000000000000001]).order? =
      some (.selUnit false 0b0001) ∧
    (decode .standard [0b0100000000000000, 0b1111111111111000]).order? =
      some (.selUnit false 0b1000) := by decide

/-- V-ENC-8, V-ENC-9: the unnamed bits are ignored. -/
theorem test_decode_read :
    (decode .standard [0b0101000000000000, 0b0000000000000001, 0b0000001100000010]).order? =
      some (.read false 0 1 2 3) ∧
    (decode .standard [0b0101001000001111, 0b1111110000000101, 0b1111111111111111]).order? =
      some (.read false 15 5 63 255) := by decide

/-- V-ENC-10. -/
theorem test_decode_write :
    (decode .standard [0b0110000000000000, 0b0000000000000001, 0b0000001100000010]).order? =
      some (.write false 0 1 2 3) := by decide

/-- V-ENC-11. -/
theorem test_decode_stall :
    (decode .standard [0b0111000000000000, 0]).order? = some (.stall false) := by decide

/-- V-ENC-12, V-ENC-13. -/
theorem test_decode_stores :
    (decode .standard [0b1001000000000000, 0b0000000001100001]).order? =
      some (.stStatus false 0x61) ∧
    (decode .standard [0b1010000000000000, 0b0000000001100000]).order? =
      some (.stOar false 0x60) := by decide

/-- V-ENC-14. -/
theorem test_decode_selDma :
    (decode .standard [0b1011000000000011, 0b0000000000000010]).order? =
      some (.selDma false 2 3) := by decide

/-- V-ENC-15. -/
theorem test_decode_interrupt :
    (decode .standard [0b1100000000000000, 0b0000000100000000]).order? =
      some (.interrupt false 0x100) := by decide

/-- V-ENC-16, V-ENC-17. -/
theorem test_decode_jump :
    (decode .standard [0b1101000000000000, 0b0000000001010000]).order? =
      some (.jump false 0x50) ∧
    (decode .standard [0b1101100000000000, 0b0000000001010000]).order? =
      some (.jump true 0x50) := by decide

/-- V-ENC-18 to V-ENC-20. -/
theorem test_decode_unrecognized :
    decode .standard [0x1000, 0, 0] = .unrecognized 1 ∧
    decode .standard [0x8000, 0, 0] = .unrecognized 8 ∧
    decode .standard [0xE000, 0, 0] = .unrecognized 14 ∧
    decode .standard [0xF000, 0, 0] = .unrecognized 15 ∧
    decode .standard [0xF800, 0, 0] = .unrecognized 15 := by decide

/-- The numbering of spec/opcode_table.json: `w1` is bits 31..16, `w2` bits 47..32. -/
theorem test_decodeTableWord :
    decodeTableWord 48 0x030200015000 = some (.read false 0 1 2 3) ∧
    decodeTableWord 32 0x0050D000 = some (.jump false 0x50) ∧
    decodeTableWord 16 0x1000 = none := by decide

/-! ### Operands (spec 95, V-CHS, V-IDX, V-UI, V-CNT) -/

/-- V-CHS-3, V-CHS-4, V-CHS-5, V-CHS-9, V-CHS-12. -/
theorem test_chsOffset :
    chsOffset 0 1 0 = 18720 ∧ chsOffset 1 0 0 = 748800 ∧ chsOffset 1023 63 255 = 767732160 ∧
    chsOffset 2 39 8 = 2244320 ∧ chsOffset 0 1 2 = 22880 := by decide

/-- V-IDX-4, V-IDX-10, V-IDX-11. -/
theorem test_pairIndex :
    pairIndex 3 = 5 ∧ addrIndex (pairIndex 3) = 7 ∧ pairIndex 31 = 61 ∧
    addrIndex (pairIndex 31) = 63 ∧ pairIndex 32 = 0 := by decide

/-- The examples of R59. -/
theorem test_dmaWordCount :
    (dmaWordCount .fault 0xFFF0).toOption = some 1 ∧
    (dmaWordCount .fault 0xBF00).toOption = some 1040 ∧
    (dmaWordCount .fault 0x8000).toOption = some 2048 ∧
    (dmaWordCount .fault 0x0010).toOption = some 4095 := by decide

/-- The values R96 lists under `literal`. -/
theorem test_unitIndex_literal :
    literalIndex 0b0000 = 0 ∧ literalIndex 0b0011 = 1 ∧ literalIndex 0b0101 = 2 ∧
    literalIndex 0b0110 = 3 ∧ literalIndex 0b0111 = 3 ∧ literalIndex 0b1001 = 3 ∧
    literalIndex 0b1011 = 5 ∧ literalIndex 0b1100 = 6 ∧ literalIndex 0b1110 = 7 := by decide

/-- The example of R65. -/
theorem test_fileName : fileName 0o26 1 = "dev26u1" := by decide

/-! ### States for the tests of steps -/

/-- Parameters with a value for each OPEN one; only the tests choose these. -/
def par : Params :=
  { Params.standard with
    loadOarFn := 0o17
    skipModeMask := 0x0008
    skipCcMask := 0x0080
    registry := [(0o4, .console), (0o14, .tape), (0o20, .controlPanel), (0o77, .genericNull)]
    functions :=
      [(.console, .control, 0), (.console, .statusTest, 0), (.console, .input, 0),
        (.console, .output, 0), (.tape, .output, 0), (.controlPanel, .control, 0),
        (.controlPanel, .input, 0), (.controlPanel, .output, 0)] }

/-- A fresh controller with these parameters. -/
def fresh : State := { State.reset with dev := 0o26, params := par }

/-- A second controller instance, at device address 0o27, with unit 1 open. -/
def second : Controller where
  dev := 0o27
  oar := 0x0777
  status := 0x0000
  selUnit := some 1
  openUnit := some 1
  dmaChan := some 3
  dmaNch := 0
  run := .idle
  events := [.opened 1 true]

/-- The fresh controller in hand and the second beside it. -/
def two : State := { fresh with others := [second] }

/-- A running program at `a` that begins with the given words. -/
def progAt (a : Word) (ws : List Word) (s : State) : State := placeOrder ws { s with oar := a }

/-- Memory of `n` words. -/
def withMemory (n : Nat) (s : State) : State := { s with params := { par with memWords := n } }

/-- Units 0 and 2 are present, with 8 and 2 bytes; units 1 and 3 are absent. -/
def withFiles (s : State) : State :=
  { s with store := [⟨0o26, 0, [0, 1, 2, 3, 4, 5, 6, 7]⟩, ⟨0o26, 2, [8, 9]⟩] }

/-- Unit 0 is open, channel 2 selected, its count and address registers `c` and `a`. -/
def readyFor (c a : Word) (s : State) : State :=
  { withFiles s with
    selUnit := some 0, openUnit := some 0, dmaChan := some 2
    dmx := ((Vector.replicate 64 0).set 4 c).set 6 a }

/-- A value of the next state. -/
def got {α : Type} (f : State → α) (o : Host.Outcome State Fault Refusal) : Option α :=
  match o with
  | .next s => some (f s)
  | .fault _ => none
  | .refused _ => none

/-! ### One step of each order -/

/-- V-CF-2 and V-DSP-1: a Halt leaves the OAR and signals success by the skip. -/
theorem test_step_halt :
    got (fun t => (t.run, t.oar, t.pc, t.keys))
      (step (progAt 0x0107 [0x0000, 0x0000] { fresh with pc := 0x1001 })) =
      some (.idle, 0x0107, 0x1002, 0) := by decide

/-- V-DSP-2: with the mode bit set the condition-code bit is set instead. -/
theorem test_step_halt_sets_cc :
    got (fun t => (t.pc, t.keys))
      (step (progAt 0x0107 [0x0000, 0x0000] { fresh with pc := 0x1001, keys := 0x0008 })) =
      some (0x1001, 0x0088) := by decide

/-- The example of R141; V-CYC-13: a slot that wraps. -/
theorem test_step_format :
    got (fun t => (t.oar, t.run, t.status))
      (step (progAt 0x0200 [0x2000, 0x0000, 0x0900] fresh)) = some (0x0203, .running, 0) ∧
    got (fun t => t.oar) (step (progAt 0xFFFF [0x2000, 0, 0] fresh)) = some 0x0002 := by decide

/-- V-CYC-15. -/
theorem test_step_seek :
    got (fun t => (t.oar, t.run, t.status))
      (step (progAt 0x0400 [0x3000, 0x8000] fresh)) = some (0x0402, .running, 0) := by decide

/-- V-SU-4: another unit's file is opened after the open one was closed. -/
theorem test_step_selUnit_present :
    got (fun t => (t.openUnit, t.selUnit, t.status, t.events, t.oar))
      (step (progAt 0x0100 [0x4000, 0b0100] (readyFor 0 0 fresh))) =
      some (some 2, some 2, 0, [.closed 0, .opened 2 true], 0x0102) := by decide

/-- V-SU-5: with an absent file no file is open afterwards and the status is not-ready. -/
theorem test_step_selUnit_absent :
    got (fun t => (t.openUnit, t.selUnit, t.status, t.events))
      (step (progAt 0x0100 [0x4000, 0b0010] (readyFor 0 0 fresh))) =
      some (none, some 1, 0x8001, [.closed 0, .opened 1 false]) := by decide

/-- V-RD-1. -/
theorem test_step_read :
    got (fun t => ((List.range 5).map (fun k => t.mem.readWord (0x200 + BitVec.ofNat 16 k)),
        dmxRead t 4, dmxRead t 6, t.events, t.oar, t.status))
      (step (progAt 0x0102 [0x5000, 0, 0] (readyFor 0xFFC0 0x0200 fresh))) =
      some ([0x0001, 0x0203, 0x0405, 0x0607, 0], 0, 0x0204, [.readBytes 0 0 8], 0x0105, 0) := by
  decide

/-- V-RD-8: no file open and no channel selected. -/
theorem test_step_read_not_ready :
    got (fun t => (t.status, t.oar, t.run, t.events))
      (step (progAt 0x0102 [0x5000, 0x0001, 0x0302] fresh)) =
      some (0x8001, 0x0105, .running, []) := by decide

/-- V-CYC-16. -/
theorem test_step_write :
    got (fun t => (t.oar, t.run, t.status, t.events))
      (step (progAt 0x0300 [0x6000, 0x0001, 0x0302] fresh)) =
      some (0x0303, .running, 0, []) := by decide

/-- V-CYC-14, V-CYC-12: the OAR wraps. -/
theorem test_step_stall :
    got (fun t => t.oar) (step (progAt 0x0700 [0x7000, 0] fresh)) = some 0x0702 ∧
    got (fun t => t.oar) (step (progAt 0xFFFE [0x7000, 0] fresh)) = some 0 := by decide

/-- V-CF-5. -/
theorem test_step_stStatus :
    got (fun t => (t.mem.readWord 0x61, t.oar, t.status))
      (step (progAt 0x0052 [0x9000, 0x0061] { fresh with status := 0x8001 })) =
      some (0x8001, 0x0054, 0x8001) := by decide

/-- V-CF-7. -/
theorem test_step_stStatus_outside :
    got (fun t => (t.run, t.oar))
      (step (progAt 0x0100 [0x9000, 0x9000] (withMemory 0x8000 fresh))) =
      some (.faulted (.memoryOutOfRange 0x9000), 0x0100) := by decide

/-- V-CF-3, V-CF-4. -/
theorem test_step_stOar :
    got (fun t => (t.mem.readWord 0x60, t.oar)) (step (progAt 0x0050 [0xA000, 0x0060] fresh)) =
      some (0x0050, 0x0052) ∧
    got (fun t => t.mem.readWord 0x60)
      (step (progAt 0x0050 [0xA000, 0x0060]
        { fresh with params := { par with storeOarValue := .next } })) = some 0x0052 := by decide

/-- V-DMA-2. -/
theorem test_step_selDma :
    got (fun t => (t.dmaChan, t.dmaNch, t.oar)) (step (progAt 0x0100 [0xB003, 0x0022] fresh)) =
      some (some 0x0022, 3, 0x0102) := by decide

/-- V-CF-6. -/
theorem test_step_interrupt :
    got (fun t => (t.run, t.oar)) (step (progAt 0x0200 [0xC000, 0x0100] fresh)) =
      some (.faulted (.interruptOrder 0x0100 0x0200), 0x0200) := by decide

/-- V-CF-1, V-CF-8: a target outside memory is no fault of the Jump. -/
theorem test_step_jump :
    got (fun t => t.oar) (step (progAt 0x0040 [0xD000, 0x0050] fresh)) = some 0x0050 ∧
    got (fun t => (t.oar, t.run))
      (step (progAt 0x0100 [0xD000, 0x9000] (withMemory 0x8000 fresh))) =
      some (0x9000, .running) := by decide

/-- V-CYC-4, V-CYC-5: a conditional Jump and a conditional Interrupt, for both draws. -/
theorem test_conditional_orders :
    exec (.jump true 0x50) { fresh with oar := 0x300 } =
      .next { fresh with
        draws := 1, oar := if Config.drawCond 0 then 0x50 else 0x302 } ∧
    (Config.drawCond 0 = false →
      exec (.interrupt true 0x100) { fresh with oar := 0x300 } =
        .next { fresh with draws := 1, oar := 0x302 }) := by
  have h : fresh.draws = 0 := rfl
  constructor
  · cases hd : Config.drawCond 0 <;>
      simp [exec, execJump, conditional, condHolds, afterCond, h, hd, advance, OrderKind.size,
        Effect.settle]
  · intro hd
    simp [exec, execInterrupt, conditional, condHolds, afterCond, h, hd, advance, OrderKind.size]

/-- V-DSP-3, V-DSP-4. -/
theorem test_dispatch :
    got (fun t => t.run) (step { fresh with inputs := [.call .statusTest 3 0o26] }) =
      some (.faulted (.unsupportedFunction .statusTest 3 0o26)) ∧
    got (fun t => t.run) (step { fresh with inputs := [.call .output 3 0o26] }) =
      some (.faulted (.unsupportedFunction .output 3 0o26)) := by decide

/-- R109: a load-OAR call to the second instance runs that one, with its own selection and open file,
and the first keeps its state. -/
theorem test_dispatch_second_instance :
    got (fun t => (t.dev, t.run, t.oar, t.openUnit, t.dmaChan))
      (step { two with acc := 0x0100, inputs := [.call .output 0o17 0o27] }) =
      some (0o27, .running, 0x0100, some 1, some 3) ∧
    got (fun t => t.others) (step { two with inputs := [.call .output 0o17 0o27] }) =
      some [inHand two] := by decide

/-- R60, R64: a file belongs to one (device address, unit). -/
theorem test_files_of_instances :
    fileOf { fresh with store := setFile 0o27 1 (some [5]) [] } 1 = none ∧
    fileOf { two with dev := 0o27, store := setFile 0o27 1 (some [5]) [] } 1 = some [5] ∧
    setFile 0o27 1 none (setFile 0o27 1 (some [5]) []) = [] := by decide

/-- R218: the readiness test of the console signals success exactly when input is pending. -/
theorem test_console_statusTest :
    got (fun t => t.pc) (step { fresh with inputs := [.call .statusTest 0 0o4] }) = some 0 ∧
    got (fun t => (t.pc, t.consoleIn))
      (step { fresh with consoleIn := [65], inputs := [.call .statusTest 0 0o4] }) =
      some (1, [65]) := by decide

/-- R220: the tape fails, and an unexpected function is fatal. -/
theorem test_tape :
    got (fun t => (t.pc, t.run)) (step { fresh with inputs := [.call .output 0 0o14] }) =
      some (0, .idle) ∧
    got (fun t => t.run) (step { fresh with inputs := [.call .output 1 0o14] }) =
      some (.faulted (.unsupportedFunction .output 1 0o14)) := by decide

/-- R101, R220: a write to the control panel is accepted. -/
theorem test_panel_write :
    got (fun t => (t.pc, t.panel))
      (step { fresh with acc := 0x1234, inputs := [.call .output 0 0o20] }) =
      some (1, 0x1234) := by decide

/-- A program comes to run: a load-OAR call, then its first order. -/
theorem test_load_oar :
    got (fun t => (t.run, t.oar, t.acc))
      (step { fresh with acc := 0x0100, inputs := [.call .output 0o17 0o26] }) =
      some (.running, 0x0100, 0x0100) := by decide

/-- What the host places is what the next step runs. -/
theorem test_withFetchWord :
    got (fun t => (t.run, t.oar)) (step (State.reset.withFetchWord 32 0x0050D000)) =
      some (.running, 0x0050) ∧
    got (fun t => t.dmaChan) (step (State.reset.withFetchWord 32 0x0002B000)) =
      some (some 2) := by decide

/-! ### Witnesses: each statement's hypotheses are met by a concrete state and operands -/

theorem witness_DecodeOfEncode :
    (∀ k : OrderKind, FieldLayout.standard.wfFor k = true) ∧ OrderCode.standard.WellFormed ∧
    Instr.WellFormed .standard (.read true 15 1023 63 255) := by
  refine ⟨?_, by decide, by decide⟩
  intro k
  cases k <;> decide

theorem witness_UnnamedBitsIgnored :
    kindOf OrderCode.standard (codeField 0x520F) = some .read ∧
    SameNamedBits .read ⟨0x520F, 0xFC05, 0xFFFF⟩ ⟨0x500F, 0x0005, 0xFF3F⟩ ∧
    kindOf OrderCode.standard (codeField 0x0000) = some .halt ∧
    SameNamedBits .halt ⟨0x0000, 0x0000, 0x0000⟩ ⟨0x07FF, 0xFFFF, 0xFFFF⟩ := by decide

theorem witness_SizeIsOfTheCodeAlone :
    decode .standard [0x7000, 0, 0x1234] = .order (.stall false) [0x1234] ∧
    decode .standard [0x5000, 0, 0, 0x1234] = .order (.read false 0 0 0 0) [0x1234] := by decide

theorem witness_UnrecognizedCodes :
    kindOf Encoding.standard.codes (codeField 0xF800) = none := by decide

/-- A 2-word and a 3-word order that end at the last word of memory. -/
theorem witness_StepRunsTheDecodedOrder :
    (let s := progAt 0x0FFE [0x7000, 0] (withMemory 0x1000 fresh)
     s.run = .running ∧ SlotInMemory s (Instr.stall false).size ∧
     decode s.params.encoding [(slotAt s).w0, (slotAt s).w1, (slotAt s).w2] =
       .order (.stall false) [0]) ∧
    (let s := progAt 0x0FFD [0x6000, 0, 0] (withMemory 0x1000 fresh)
     s.run = .running ∧ SlotInMemory s (Instr.write false 0 0 0 0).size ∧
     decode s.params.encoding [(slotAt s).w0, (slotAt s).w1, (slotAt s).w2] =
       .order (.write false 0 0 0 0) []) := by decide

/-- V-CYC-11, V-CYC-8, V-CYC-9, V-CYC-10: each clause at the edge of memory. -/
theorem witness_FetchFaultsInOrder :
    (let s := progAt 0x1000 [] (withMemory 0x1000 fresh)
     s.run = .running ∧ ¬ s.oar.toNat < s.params.memWords) ∧
    (let s := progAt 0x0FFF [0x1800] (withMemory 0x1000 fresh)
     s.run = .running ∧ s.oar.toNat < s.params.memWords ∧
     kindOf s.params.encoding.codes (codeField (slotAt s).w0) = none) ∧
    (let s := progAt 0x0FFF [0x0000] (withMemory 0x1000 fresh)
     s.run = .running ∧ s.oar.toNat < s.params.memWords ∧
     kindOf s.params.encoding.codes (codeField (slotAt s).w0) = some .halt ∧
     ¬ (s.oar + 1).toNat < s.params.memWords) ∧
    (let s := progAt 0x0FFE [0x5000, 0] (withMemory 0x1000 fresh)
     s.run = .running ∧ s.oar.toNat < s.params.memWords ∧
     kindOf s.params.encoding.codes (codeField (slotAt s).w0) = some .read ∧
     (s.oar + 1).toNat < s.params.memWords ∧ OrderKind.read.size = 3 ∧
     ¬ (s.oar + 2).toNat < s.params.memWords) := by decide

theorem witness_ConditionalOrderExecutesOrSkips : (Instr.halt true).cond = true := rfl

/-- A running state for each of the two clauses: a Stall, a Jump and a Halt. -/
theorem witness_OarAdvancesJumpsOrStays :
    (let s := progAt 0xFFFE [] fresh
     s.run = .running ∧
     (∃ t, exec (.stall false) s = .next t ∧ t.run = .running) ∧
     (∃ t, exec (.jump false 7) s = .next t ∧ t.run = .running) ∧
     ∃ t, exec (.halt false) s = .next t ∧ t.run ≠ .running) :=
  ⟨rfl, ⟨_, rfl, rfl⟩, ⟨_, rfl, rfl⟩, ⟨_, rfl, by decide⟩⟩

/-- The status 0x8001 is a word of code 8, which is no order (spec 95, P6 (c)). -/
theorem witness_StoredWordIsFetchedNext :
    (let s : State := { fresh with oar := 0xFFFD, status := 0x8001 }
     (s.oar + 2).toNat < s.params.memWords ∧
     (∃ t, exec (.stStatus false (s.oar + 2)) s = .next t ∧
       kindOf t.params.encoding.codes (codeField s.status) = none)) :=
  ⟨by decide, ⟨_, rfl, by decide⟩⟩

theorem witness_StoreStatusResult_and_StoreOarResult :
    (0x0FFF : Word).toNat < (withMemory 0x1000 fresh).params.memWords := by decide

theorem witness_StoreOutsideMemoryFaults :
    ¬ (0x1000 : Word).toNat < (withMemory 0x1000 fresh).params.memWords := by decide

theorem witness_StoredWordReadsBack :
    (let s := withMemory 0x1000 fresh
     (0x0FFF : Word).toNat < s.params.memWords ∧
     (∃ t, exec (.stStatus false 0x0FFF) s = .next t) ∧
     ∃ u, exec (.stOar false 0x0FFF) s = .next u) := ⟨by decide, ⟨_, rfl⟩, ⟨_, rfl⟩⟩

theorem witness_SelectOpenUnitResult :
    (let s := readyFor 0 0 fresh
     unitIndex s.params.unitFieldPolicy 0b0001 = .ok 0 ∧ s.openUnit = some 0) := ⟨rfl, rfl⟩

theorem witness_SelectPresentUnitResult :
    (let s := readyFor 0 0 fresh
     unitIndex s.params.unitFieldPolicy 0b0100 = .ok 2 ∧ s.openUnit ≠ some 2 ∧
     present s 2 = true) := ⟨rfl, by decide, by decide⟩

/-- Unit 3, the last; and under `literal` unit 7, which is always absent (V-SU-11). -/
theorem witness_SelectAbsentUnitResult :
    (let s := readyFor 0 0 fresh
     unitIndex s.params.unitFieldPolicy 0b1000 = .ok 3 ∧ s.openUnit ≠ some 3 ∧
     present s 3 = false) ∧
    (let s : State := { fresh with params := { par with unitFieldPolicy := .literal } }
     unitIndex s.params.unitFieldPolicy 0b1110 = .ok 7 ∧ s.openUnit ≠ some 7 ∧
     present s 7 = false) := ⟨⟨rfl, by decide, by decide⟩, rfl, by decide, by decide⟩

theorem witness_BadUnitFieldFaults :
    fresh.params.unitFieldPolicy = .fault ∧
    (0b0011 : BitVec 4) ≠ 0b0001 ∧ (0b0011 : BitVec 4) ≠ 0b0010 ∧
    (0b0011 : BitVec 4) ≠ 0b0100 ∧ (0b0011 : BitVec 4) ≠ 0b1000 := by decide

theorem witness_SelectUnitIdempotent :
    (let s := withFiles fresh
     unitIndex s.params.unitFieldPolicy 0b0001 = .ok 0 ∧
     ∃ t, exec (.selUnit false 0b0001) s = .next t ∧ t.openUnit = some 0) :=
  ⟨rfl, ⟨_, rfl, by decide⟩⟩

/-- Reselection of a present and of an absent unit. -/
theorem witness_ReselectClosesThenOpens :
    (let s := readyFor 0 0 fresh
     s.openUnit = some 0 ∧ (0 : UnitIndex) ≠ 2 ∧ (0 : UnitIndex) ≠ 1 ∧
     unitIndex s.params.unitFieldPolicy 0b0100 = .ok 2 ∧ present s 2 = true ∧
     unitIndex s.params.unitFieldPolicy 0b0010 = .ok 1 ∧ present s 1 = false ∧
     (∃ t, exec (.selUnit false 0b0100) s = .next t) ∧
     ∃ t, exec (.selUnit false 0b0010) s = .next t) :=
  ⟨rfl, by decide, by decide, rfl, by decide, rfl, by decide, ⟨_, rfl⟩, ⟨_, rfl⟩⟩

theorem witness_ReadWithNoFileOpenResult : fresh.openUnit = none := rfl

/-- Two words whose buffer wraps past 0xFFFF (V-RD-4), and the whole file of 8 bytes. -/
theorem witness_ReadTransfersWords :
    (let s := readyFor 0xFFE0 0xFFFF fresh
     s.openUnit = some 0 ∧ s.dmaChan = some 2 ∧
     dmaWordCount s.params.zeroCountPolicy (dmxRead s (pairIndex 2)) = .ok 2 ∧
     (∀ k < 2, (dmxRead s (addrIndex (pairIndex 2)) + BitVec.ofNat 16 k).toNat
       < s.params.memWords) ∧
     chsOffset 0 0 0 + 2 * 2 ≤ (fileBytes s 0).length) ∧
    (let s := readyFor 0xFFC0 0x0200 fresh
     dmaWordCount s.params.zeroCountPolicy (dmxRead s (pairIndex 2)) = .ok 4 ∧
     (∀ k < 4, (dmxRead s (addrIndex (pairIndex 2)) + BitVec.ofNat 16 k).toNat
       < s.params.memWords) ∧
     chsOffset 0 0 0 + 2 * 4 ≤ (fileBytes s 0).length) :=
  ⟨⟨rfl, rfl, rfl, by decide, by decide⟩, rfl, by decide, by decide⟩

/-- V-RD-7; V-RD-6; V-RD-5 (the second word of the buffer is the first outside); V-RD-2. -/
theorem witness_ReadFaultsInOrder :
    ({ readyFor 0 0 fresh with dmaChan := none }.openUnit = some (0 : UnitIndex) ∧
      { readyFor 0 0 fresh with dmaChan := none }.dmaChan = none) ∧
    (let s := readyFor 0x000F 0 fresh
     s.openUnit = some 0 ∧ s.dmaChan = some 2 ∧ s.params.zeroCountPolicy = .fault ∧
     countField (dmxRead s (pairIndex 2)) = 0) ∧
    (let s := readyFor 0xFFE0 0x7FFF (withMemory 0x8000 fresh)
     s.openUnit = some 0 ∧ s.dmaChan = some 2 ∧
     dmaWordCount s.params.zeroCountPolicy (dmxRead s (pairIndex 2)) = .ok 2 ∧
     s.params.memWords ≤ (dmxRead s (addrIndex (pairIndex 2)) + BitVec.ofNat 16 1).toNat ∧
     ∀ j < 1, (dmxRead s (addrIndex (pairIndex 2)) + BitVec.ofNat 16 j).toNat
       < s.params.memWords) ∧
    (let s := readyFor 0xFFB0 0x0300 fresh
     s.openUnit = some 0 ∧ s.dmaChan = some 2 ∧
     dmaWordCount s.params.zeroCountPolicy (dmxRead s (pairIndex 2)) = .ok 5 ∧
     (∀ k < 5, (dmxRead s (addrIndex (pairIndex 2)) + BitVec.ofNat 16 k).toNat
       < s.params.memWords) ∧
     (fileBytes s 0).length < chsOffset 0 0 0 + 2 * 5) :=
  ⟨⟨rfl, rfl⟩, ⟨rfl, rfl, rfl, by decide⟩, ⟨rfl, rfl, rfl, by decide, by decide⟩,
    rfl, rfl, rfl, by decide, by decide⟩

theorem witness_ReadIgnoresRecsizeAndHighChannelBits :
    (let s := readyFor 0xFFC0 0x0200 fresh
     (2 : Word) &&& 0x1F = 0xFFE2 &&& 0x1F ∧ s.dmaChan = some 2 ∧
     ∃ t, exec (.read false 0 0 0 0) s = .next t) := ⟨by decide, rfl, ⟨_, rfl⟩⟩

theorem witness_SecondReadOnAChannelFaults :
    (let s := progAt 0x0102 [] (readyFor 0xFFC0 0x0200 fresh)
     s.run = .running ∧ s.params.zeroCountPolicy = .fault ∧ s.openUnit = some 0 ∧
     ∃ t, exec (.read false 0 0 0 0) s = .next t ∧ t.run = .running) :=
  ⟨rfl, rfl, rfl, ⟨_, rfl, by decide⟩⟩

theorem witness_PairIndexFormula : (2 : Word) &&& 0x1F ≠ 3 &&& 0x1F := by decide

/-- Geometry-valid triples at the edge: the last record of a head, the last head of a track. -/
theorem witness_ChsTranslation :
    (1022 : BitVec 10) < 1023 ∧ (62 : BitVec 6) < 63 ∧ (254 : BitVec 8) < 255 ∧
    (39 : BitVec 6).toNat < 40 ∧ (8 : BitVec 8).toNat < 9 := by decide

theorem witness_DmaCountDecoding : 1 ≤ 1 ∧ 4095 ≤ 4095 := by decide

theorem witness_FileNamesDiffer : fileName 0o26 1 = fileName 0o26 1 := rfl

/-- One next state of every order answers the hypotheses of the frames. -/
theorem witness_OrderFrame_and_EventsOnlyAppended :
    (let s := readyFor 0xFFC0 0x0200 fresh
     (∃ t, exec (.halt false) s = .next t) ∧ (∃ t, exec (.format false 0 0 0 0) s = .next t) ∧
     (∃ t, exec (.seek false 0 false false) s = .next t) ∧
     (∃ t, exec (.selUnit false 0b0010) s = .next t) ∧
     (∃ t, exec (.read false 0 0 0 0) s = .next t) ∧
     (∃ t, exec (.write false 0 0 0 0) s = .next t) ∧ (∃ t, exec (.stall false) s = .next t) ∧
     (∃ t, exec (.stStatus false 0) s = .next t) ∧ (∃ t, exec (.stOar false 0) s = .next t) ∧
     (∃ t, exec (.selDma false 0 0) s = .next t) ∧
     (∃ t, exec (.interrupt false 0) s = .next t) ∧ ∃ t, exec (.jump false 0) s = .next t) :=
  ⟨⟨_, rfl⟩, ⟨_, rfl⟩, ⟨_, rfl⟩, ⟨_, rfl⟩, ⟨_, rfl⟩, ⟨_, rfl⟩, ⟨_, rfl⟩, ⟨_, rfl⟩, ⟨_, rfl⟩,
    ⟨_, rfl⟩, ⟨_, rfl⟩, ⟨_, rfl⟩⟩

/-- A store at the last word; a Read that transfers; a Read with no file open. -/
theorem witness_StoringOrderFrame :
    (∃ t, exec (.stStatus false 0xFFFF) fresh = .next t) ∧
    (∃ t, exec (.stOar false 0xFFFF) fresh = .next t) ∧
    (let s := readyFor 0xFFC0 0xFFFE fresh
     (∃ t, exec (.read false 0 0 0 0) s = .next t) ∧ s.dmaChan = some 2 ∧
     dmaWordCount s.params.zeroCountPolicy (dmxRead s (pairIndex 2)) = .ok 4 ∧
     ∀ k < 4, 0x0200 / 2 ≠
       (dmxRead s (addrIndex (pairIndex 2)) + BitVec.ofNat 16 k).toNat) ∧
    (fresh.openUnit = none ∧ ∃ t, exec (.read false 0 0 0 0) fresh = .next t) :=
  ⟨⟨_, rfl⟩, ⟨_, rfl⟩, ⟨⟨_, rfl⟩, rfl, rfl, by decide⟩, rfl, ⟨_, rfl⟩⟩

/-- A channel selected by a step of the running interpreter; and an executed SelectDMA. -/
theorem witness_OnlySelectDmaSelects :
    (let s := progAt 0x0100 [0xB003, 0x0022] fresh
     s.run = .running ∧
     ∃ t, step s = .next t ∧ (t.dmaChan ≠ s.dmaChan ∨ t.dmaNch ≠ s.dmaNch)) ∧
    condHolds false fresh = true :=
  ⟨⟨rfl, ⟨_, rfl, by decide⟩⟩, rfl⟩

theorem witness_FaultedIsNeverLeft :
    ({ fresh with run := .faulted (.badUnitField 3) } : State).run =
      .faulted (.badUnitField 3) := rfl

/-- A fault of an order's own checks, and a ShortRead. -/
theorem witness_FaultingOrderWritesNothing :
    (let s := progAt 0x0100 [] (readyFor 0xFFB0 0x0300 fresh)
     s.run = .running ∧
     (∃ t, exec (.selUnit false 0b0011) s = .next t ∧ t.run = .faulted (.badUnitField 3)) ∧
     ∃ t, exec (.read false 0 0 0 0) s = .next t ∧ t.run = .faulted (.shortRead 0 0 10)) :=
  ⟨rfl, ⟨_, rfl, by decide⟩, ⟨_, rfl, by decide⟩⟩

/-- A step that ends the program, and one that goes on. -/
theorem witness_OnlyHaltEndsAndSignals :
    (let s := progAt 0x0107 [0, 0] fresh
     s.run = .running ∧ ∃ t, step s = .next t ∧ t.run = .idle) ∧
    (let s := progAt 0x0107 [0x7000, 0] fresh
     s.run = .running ∧ ∃ t, step s = .next t ∧ t.run ≠ .idle) :=
  ⟨⟨rfl, ⟨_, rfl, by decide⟩⟩, rfl, ⟨_, rfl, by decide⟩⟩

theorem witness_SuccessSkipResult :
    ({ fresh with keys := 0x0008 } : State).keys &&& par.skipModeMask ≠ 0 ∧
    fresh.keys &&& par.skipModeMask = 0 := by decide

/-- A status that changes by a SelectUnit and by a Read; and one that is not-ready and is cleared. -/
theorem witness_NotReadyCausesAndSticks :
    (let s := progAt 0x0100 [0x4000, 0b0010] fresh
     s.run = .running ∧ ∃ t, step s = .next t ∧ t.status ≠ s.status) ∧
    (let s := progAt 0x0100 [0x5000, 0, 0] fresh
     s.run = .running ∧ ∃ t, step s = .next t ∧ t.status ≠ s.status) ∧
    (let s := progAt 0x0100 [0x4000, 0b0001] { withFiles fresh with status := 0x8001 }
     s.run = .running ∧ (∃ t, step s = .next t ∧ t.status = 0) ∧
     s.status &&& s.params.notReadyMask = s.params.notReadyMask) :=
  ⟨⟨rfl, ⟨_, rfl, by decide⟩⟩, ⟨rfl, ⟨_, rfl, by decide⟩⟩, rfl, ⟨_, rfl, by decide⟩, by decide⟩

/-- The five invariants hold, and a step is taken, in a state with two instances, a file open in each and
memory in use; and in an idle one whose next step takes the second instance in hand. -/
theorem witness_StepKeeps_invariants :
    (let s := progAt 0x0100 [0x4000, 0b0100]
       { readyFor 0xFFC0 0x0200 two with events := [.opened 0 true] }
     s.MemOk ∧ s.StatusOk ∧ s.SelectionOk ∧ s.UnitsOk ∧ s.HistoryOk ∧ s.InstancesOk ∧
     ∃ t, step s = .next t) ∧
    (let s : State := { two with inputs := [.call .output 0o17 0o27] }
     s.MemOk ∧ s.StatusOk ∧ s.SelectionOk ∧ s.UnitsOk ∧ s.HistoryOk ∧ s.InstancesOk ∧
     ∃ t, step s = .next t) :=
  ⟨⟨by decide, by decide, by decide, by intro _; decide, by decide, by decide, ⟨_, rfl⟩⟩,
    by decide, by decide, by decide, by intro _; decide, by decide, by decide, ⟨_, rfl⟩⟩

/-- A running step and an idle step. -/
theorem witness_StepKeepsConfiguration_and_RunningStepIgnoresInputs :
    (let s := progAt 0x0700 [0x7000, 0] fresh
     s.run = .running ∧ ∃ t, step s = .next t) ∧
    ∃ t, step { fresh with inputs := [.cpuAcc 5] } = .next t :=
  ⟨⟨rfl, ⟨_, rfl⟩⟩, ⟨_, rfl⟩⟩

/-- A call to the instance in hand, and one to the second instance. -/
theorem witness_LoadOarStartsAProgram :
    (let s : State := { fresh with inputs := [.call .output 0o17 0o26, .cpuPc 0] }
     s.run = .idle ∧ s.live = true ∧
     s.inputs = .call .output s.params.loadOarFn s.dev :: [.cpuPc 0]) ∧
    (let s : State := { two with inputs := [.call .output 0o17 0o27] }
     s.run = .idle ∧ s.inputs = .call .output s.params.loadOarFn 0o27 :: [] ∧
     (0o27 ≠ s.dev ∨ s.live = false) ∧
     s.others.find? (fun d => d.dev == 0o27) = some second) :=
  ⟨⟨rfl, rfl, rfl⟩, rfl, rfl, by decide, by decide⟩

/-- A class other than output, to the instance in hand; and class output with another function, to the
second instance. -/
theorem witness_OtherDiskCallsAreFatal :
    (let s : State := { fresh with inputs := [.call .statusTest 0o17 0o26] }
     s.run = .idle ∧ s.inputs = .call .statusTest 0o17 0o26 :: [] ∧
     address 0o26 { s with inputs := [] } = some { s with inputs := [] } ∧
     IoClass.statusTest ≠ .output) ∧
    (let s : State := { two with inputs := [.call .output 0o16 0o27] }
     s.run = .idle ∧ s.inputs = .call .output 0o16 0o27 :: [] ∧
     address 0o27 { s with inputs := [] } = some (bringIn second { s with inputs := [] }) ∧
     0o16 ≠ s.params.loadOarFn) :=
  ⟨⟨rfl, rfl, rfl, by decide⟩, rfl, rfl, rfl, by decide⟩

/-- An address with no handler; and one with the generic-null handler. -/
theorem witness_UnhandledDeviceIsFatal :
    (let s : State := { fresh with inputs := [.call .control 0 0o5] }
     s.run = .idle ∧ s.inputs = .call .control 0 0o5 :: [] ∧ address 0o5 s = none ∧
     handlerAt s 0o5 = none) ∧
    (let s : State := { fresh with inputs := [.call .control 0 0o77] }
     s.run = .idle ∧ s.inputs = .call .control 0 0o77 :: [] ∧ address 0o77 s = none ∧
     handlerAt s 0o77 = some .genericNull) :=
  ⟨⟨rfl, rfl, rfl, rfl⟩, rfl, rfl, rfl, rfl⟩

/-- Each class of a call to the console; a class 2 call with input pending, and one whose character is
typed after it. -/
theorem witness_ConsoleResult :
    (∀ cls : IoClass,
      let s : State := { fresh with consoleIn := [65], inputs := [.call cls 0 0o4] }
      s.run = .idle ∧ s.inputs = .call cls 0 0o4 :: [] ∧ address 0o4 s = none ∧
      handlerAt s 0o4 = some .console ∧ recognizes s .console cls 0 = true ∧
      s.consoleIn = 65 :: []) ∧
    (let s : State := { fresh with inputs := [.call .input 0 0o4, .cpuPc 7, .consoleKey 66] }
     s.run = .idle ∧ address 0o4 s = none ∧ handlerAt s 0o4 = some .console ∧
     recognizes s .console .input 0 = true ∧ s.consoleIn = [] ∧
     takeKey [.cpuPc 7, .consoleKey 66] = some (66, [.cpuPc 7]) ∧ takeKey [.cpuPc 7] = none) := by
  refine ⟨?_, rfl, rfl, rfl, rfl, rfl, rfl, rfl⟩
  intro cls
  cases cls <;> exact ⟨rfl, rfl, rfl, rfl, rfl, rfl⟩

/-- The tape and the control panel, with a function they recognize and one they do not. -/
theorem witness_TapeAndPanelResult :
    (let s : State := { fresh with inputs := [.call .output 0 0o14] }
     s.run = .idle ∧ s.inputs = .call .output 0 0o14 :: [] ∧ address 0o14 s = none ∧
     handlerAt s 0o14 = some .tape ∧ recognizes s .tape .output 0 = true) ∧
    (let s : State := { fresh with inputs := [.call .input 0 0o20] }
     s.run = .idle ∧ s.inputs = .call .input 0 0o20 :: [] ∧ address 0o20 s = none ∧
     handlerAt s 0o20 = some .controlPanel ∧ recognizes s .controlPanel .input 0 = true) ∧
    (let s : State := { fresh with inputs := [.call .control 0 0o20] }
     s.run = .idle ∧ s.inputs = .call .control 0 0o20 :: [] ∧ address 0o20 s = none ∧
     handlerAt s 0o20 = some .controlPanel ∧ recognizes s .controlPanel .control 0 = true) ∧
    (let s : State := { fresh with inputs := [.call .output 1 0o4] }
     s.run = .idle ∧ s.inputs = .call .output 1 0o4 :: [] ∧ address 0o4 s = none ∧
     handlerAt s 0o4 = some .console ∧ recognizes s .console .output 1 = false) :=
  ⟨⟨rfl, rfl, rfl, rfl, rfl⟩, ⟨rfl, rfl, rfl, rfl, rfl⟩, ⟨rfl, rfl, rfl, rfl, rfl⟩,
    rfl, rfl, rfl, rfl, rfl⟩

/-- A construction at a new address, and at that of an instance there is. -/
theorem witness_ConstructResets :
    (let s : State := { two with inputs := [.construct 0o30] }
     s.run = .idle ∧ s.inputs = .construct 0o30 :: []) ∧
    (let s : State := { two with inputs := [.construct 0o27] }
     s.run = .idle ∧ s.inputs = .construct 0o27 :: []) := ⟨⟨rfl, rfl⟩, rfl, rfl⟩

theorem witness_ResetState : fresh.run = .idle ∧ fresh.inputs = [] := ⟨rfl, rfl⟩

/-- The instance in hand, with a file open; and the second instance. -/
theorem witness_TeardownClosesTheFile :
    (let s : State := { readyFor 0 0 fresh with inputs := [.teardown 0o26] }
     s.run = .idle ∧ s.inputs = .teardown 0o26 :: [] ∧
     address 0o26 { s with inputs := [] } = some { s with inputs := [] } ∧
     s.openUnit = some 0) ∧
    (let s : State := { two with inputs := [.teardown 0o27] }
     s.run = .idle ∧ s.inputs = .teardown 0o27 :: [] ∧
     address 0o27 { s with inputs := [] } = some (bringIn second { s with inputs := [] })) :=
  ⟨⟨rfl, rfl, rfl, rfl⟩, rfl, rfl, rfl⟩

end Sys2Proof.Tests
end

section
/-! PROOF. The DMA selection (R151, R152): which orders keep it, and what SelectDMA records. -/

namespace Sys2Proof.Machine

open Sys2Proof.Config

/-- R151: the own part of an order that is not a SelectDMA keeps the DMA selection. -/
theorem Ran.keeps_dmaSelection {i : Instr} {s t : State} (h : Ran i s t)
    (hi : i.kind ≠ .selDma) : t.dmaChan = s.dmaChan ∧ t.dmaNch = s.dmaNch := by
  cases h
  case selDma => exact absurd rfl hi
  all_goals simp

/-- The kind determines the constructor: only a SelectDMA has kind `selDma`. -/
theorem eq_selDma_of_kind {i : Instr} (h : i.kind = .selDma) :
    ∃ c ch n, i = .selDma c ch n := by
  cases i
  case selDma c ch n => exact ⟨c, ch, n, rfl⟩
  all_goals cases h

/-- R151 with the skip of R125: an order that changes the DMA selection is a SelectDMA whose
condition holds. -/
theorem exec_changes_dmaSelection {i : Instr} {s t : State} (h : exec i s = .next t)
    (hne : t.dmaChan ≠ s.dmaChan ∨ t.dmaNch ≠ s.dmaNch) :
    ∃ c ch n, i = .selDma c ch n ∧ condHolds c s = true := by
  rcases exec_next_cases h with ⟨-, rfl⟩ | ⟨hc, hran⟩
  · simp at hne
  · by_cases hk : i.kind = .selDma
    · obtain ⟨c, ch, n, rfl⟩ := eq_selDma_of_kind hk
      exact ⟨c, ch, n, rfl, hc⟩
    · obtain ⟨hchan, hnch⟩ := hran.keeps_dmaSelection hk
      simp [hchan, hnch] at hne

/-- R152: the next state of a SelectDMA whose condition holds. -/
theorem exec_selDma_of_condHolds {c : Bool} {s : State} (ch : Word) (n : BitVec 4)
    (hc : condHolds c s = true) :
    exec (.selDma c ch n) s =
      .next (advance .selDma { afterCond c s with dmaChan := some ch, dmaNch := n }) := by
  simp [exec, execSelDma, conditional_eq, hc]

/-- Settles O36: neither a fetch fault nor the end of the load-OAR call touches the selection, so a
step that changes it executed an order that does. -/
theorem onlySelectDmaSelects : Obligations.OnlySelectDmaSelects := by
  refine ⟨fun s t hrun hstep hne => ?_, fun c ch n s hc => ?_⟩
  · rcases step_next_cases hstep with
      ⟨-, r, -, rfl⟩ | ⟨-, i, u, hfetch, hexec, rfl⟩ | ⟨hidle, -⟩ | ⟨hidle, -⟩
    · simp at hne
    · rw [endCall_dmaChan, endCall_dmaNch] at hne
      obtain ⟨c, ch, n, rfl, hc⟩ := exec_changes_dmaSelection hexec hne
      exact ⟨c, ch, n, hfetch, hc⟩
    all_goals simp [hrun] at hidle
  · exact ⟨_, exec_selDma_of_condHolds ch n hc, rfl, rfl, by simp [OrderKind.size]⟩

end Sys2Proof.Machine
end

section
/-! PROOF. The faulted state (R29, R201): no step is enabled there, so no run leaves it. -/

namespace Sys2Proof.Machine

/-- R29, R201: a step of a faulted machine answers the reason. -/
theorem step_of_faulted {s : State} {r : Fault} (h : s.run = .faulted r) : step s = .fault r := by
  simp [step, h]

/-- A run of at least one step ends at a first step that faults, however many steps were asked for. -/
theorem run_succ_of_step_fault {s : State} {r : Fault} (h : step s = .fault r) (n : Nat) :
    core.run (n + 1) s = .fault r := by
  have hcore : core.step s = .fault r := h
  simp only [Host.Core.run, hcore]

/-- Settles O40: raising sets the run state alone; a step of a faulted machine faults at once, and a
run of one or more steps begins with that step. -/
theorem faultedIsNeverLeft : Obligations.FaultedIsNeverLeft := by
  refine ⟨fun s r => rfl, fun s r n hrun => ?_⟩
  have hstep : step s = .fault r := step_of_faulted hrun
  exact ⟨hstep, run_succ_of_step_fault hstep n⟩

end Sys2Proof.Machine
end

section
/-! PROOF. Encoding and decoding (R80 to R99): the decoder reads back every order the encoder wrote,
takes as many words as the code says, and looks at the named bits only. -/

namespace Sys2Proof

open Sys2Proof.Config Sys2Proof.Machine

/-! ### What the encoder wrote -/

/-- The head of an encoded order, for every order. -/
theorem encodedHead (i : Instr) : Laws.EncodedHead.Statement i := by
  cases i with
  | halt c => exact Laws.EncodedHead.halt c
  | format c rs t h n => exact Laws.EncodedHead.format c rs t h n
  | seek c t re cl => exact Laws.EncodedHead.seek c t re cl
  | selUnit c f => exact Laws.EncodedHead.selUnit c f
  | read c rs t h r => exact Laws.EncodedHead.read c rs t h r
  | write c rs t h r => exact Laws.EncodedHead.write c rs t h r
  | stall c => exact Laws.EncodedHead.stall c
  | stStatus c a => exact Laws.EncodedHead.stStatus c a
  | stOar c a => exact Laws.EncodedHead.stOar c a
  | selDma c ch n => exact Laws.EncodedHead.selDma c ch n
  | interrupt c v => exact Laws.EncodedHead.interrupt c v
  | jump c a => exact Laws.EncodedHead.jump c a

/-- Putting a field that lies apart from a field that reads 0 keeps it 0. -/
theorem field_put_eq_zero {s : Slot} {n m : Nat} {p q : FieldPos} (v : BitVec n)
    (h : p.Apart n q m) (h0 : s.field q m = 0) : (s.put p v).field q m = 0 := by
  rw [field_put_apart _ _ _ _ h, h0]

/-- A field alone in its slot reads back. -/
theorem field_put_baseSlot (code : BitVec 4) (c : Bool) {n size : Nat} {p : FieldPos}
    (hf : p.Fits n size) (v : BitVec n) : ((baseSlot code c).put p v).field p n = v :=
  field_put_self _ _ _ hf (field_baseSlot code c p hf)

/-- The four fields of a 3-word disk order read back (R84, R85). -/
theorem field_putTransfer {l : TransferLayout} (hl : l.wf = true) (code : BitVec 4) (c : Bool)
    (rs : BitVec 4) (t : BitVec 10) (h : BitVec 6) (r : BitVec 8) :
    ((baseSlot code c).putTransfer l rs t h r).field l.recsize 4 = rs ∧
    ((baseSlot code c).putTransfer l rs t h r).field l.track 10 = t ∧
    ((baseSlot code c).putTransfer l rs t h r).field l.head 6 = h ∧
    ((baseSlot code c).putTransfer l rs t h r).field l.sector 8 = r := by
  simp only [TransferLayout.wf, Bool.and_eq_true, decide_eq_true_eq] at hl
  obtain ⟨⟨⟨f1, f2, f3, f4⟩, a12, a13, a14⟩, a23, a24, a34⟩ := hl
  have z2 := field_put_eq_zero rs a12 (field_baseSlot code c l.track f2)
  have z3 := field_put_eq_zero t a23 <|
    field_put_eq_zero rs a13 (field_baseSlot code c l.head f3)
  have z4 := field_put_eq_zero h a34 <| field_put_eq_zero t a24 <|
    field_put_eq_zero rs a14 (field_baseSlot code c l.sector f4)
  refine ⟨?_, ?_, ?_, field_put_self _ _ _ f4 z4⟩ <;> simp only [Slot.putTransfer]
  · rw [field_put_apart _ _ _ _ (apart_symm a14), field_put_apart _ _ _ _ (apart_symm a13),
      field_put_apart _ _ _ _ (apart_symm a12), field_put_baseSlot _ _ f1]
  · rw [field_put_apart _ _ _ _ (apart_symm a24), field_put_apart _ _ _ _ (apart_symm a23),
      field_put_self _ _ _ f2 z2]
  · rw [field_put_apart _ _ _ _ (apart_symm a34), field_put_self _ _ _ f3 z3]

/-- The three fields of a Seek read back (R87). -/
theorem field_putSeek {l : SeekLayout} (hl : l.wf = true) (code : BitVec 4) (c : Bool)
    (t : BitVec 10) (re cl : BitVec 1) :
    ((((baseSlot code c).put l.track t).put l.restore re).put l.clear cl).field l.track 10 = t ∧
    ((((baseSlot code c).put l.track t).put l.restore re).put l.clear cl).field l.restore 1 = re ∧
    ((((baseSlot code c).put l.track t).put l.restore re).put l.clear cl).field l.clear 1 = cl := by
  simp only [SeekLayout.wf, Bool.and_eq_true, decide_eq_true_eq] at hl
  obtain ⟨⟨f1, f2, f3⟩, a12, a13, a23⟩ := hl
  have z2 := field_put_eq_zero t a12 (field_baseSlot code c l.restore f2)
  have z3 := field_put_eq_zero re a23 <|
    field_put_eq_zero t a13 (field_baseSlot code c l.clear f3)
  refine ⟨?_, ?_, field_put_self _ _ _ f3 z3⟩
  · rw [field_put_apart _ _ _ _ (apart_symm a13), field_put_apart _ _ _ _ (apart_symm a12),
      field_put_baseSlot _ _ f1]
  · rw [field_put_apart _ _ _ _ (apart_symm a23), field_put_self _ _ _ f2 z2]

/-- The two fields of a SelectDMA read back (R90). -/
theorem field_putSelDma {p q : FieldPos} (f1 : p.Fits 16 2) (f2 : q.Fits 4 2)
    (a12 : p.Apart 16 q 4) (code : BitVec 4) (c : Bool) (ch : Word) (n : BitVec 4) :
    (((baseSlot code c).put p ch).put q n).field p 16 = ch ∧
    (((baseSlot code c).put p ch).put q n).field q 4 = n := by
  have z2 := field_put_eq_zero ch a12 (field_baseSlot code c q f2)
  refine ⟨?_, field_put_self _ _ _ f2 z2⟩
  rw [field_put_apart _ _ _ _ (apart_symm a12), field_put_baseSlot _ _ f1]

@[simp] theorem bitSet_ofBool (b : Bool) : bitSet (BitVec.ofBool b) = b := by
  cases b <;> rfl

/-- The slot of an order decodes to the order (R83 to R91). -/
theorem decodeSlot_encodeSlot {e : Encoding} {i : Instr} (hw : i.WellFormed e) :
    decodeSlot e.layout i.kind (encodeSlot e i) = i := by
  have hc : condFlag (encodeSlot e i).w0 = i.cond := (encodedHead i e hw).2.2
  have hl := hw.2
  cases i <;> simp only [encodeSlot, putFields, Instr.kind, Instr.cond] at hc hl ⊢ <;>
    simp only [decodeSlot, hc]
  case format c rs t h n =>
    obtain ⟨h1, h2, h3, h4⟩ := field_putTransfer hl (e.codes.codeOf .format) c rs t h n
    rw [h1, h2, h3, h4]
  case read c rs t h r =>
    obtain ⟨h1, h2, h3, h4⟩ := field_putTransfer hl (e.codes.codeOf .read) c rs t h r
    rw [h1, h2, h3, h4]
  case write c rs t h r =>
    obtain ⟨h1, h2, h3, h4⟩ := field_putTransfer hl (e.codes.codeOf .write) c rs t h r
    rw [h1, h2, h3, h4]
  case seek c t re cl =>
    obtain ⟨h1, h2, h3⟩ := field_putSeek hl (e.codes.codeOf .seek) c t (.ofBool re) (.ofBool cl)
    rw [h1, h2, h3, bitSet_ofBool, bitSet_ofBool]
  case selDma c ch n =>
    obtain ⟨f1, f2, a12⟩ := of_decide_eq_true hl
    obtain ⟨h1, h2⟩ := field_putSelDma f1 f2 a12 (e.codes.codeOf .selDma) c ch n
    rw [h1, h2]
  -- the orders of one field
  all_goals rw [field_put_baseSlot _ _ (of_decide_eq_true hl)]

/-! ### The decoder on a slot of known kind -/

/-- A first word whose code is that of a kind decodes to the order of its slot; for a 2-word order
the third word is no part of the slot. -/
theorem decode_words {e : Encoding} {s : Slot} {k : OrderKind}
    (hk : kindOf e.codes (codeField s.w0) = some k) (rest : List Word) :
    decode e (s.words k.size ++ rest) =
      .order (decodeSlot e.layout k ⟨s.w0, s.w1, if k.size = 3 then s.w2 else 0⟩) rest := by
  cases k <;> simp [decode, Slot.words, OrderKind.size, hk]

/-- Putting a field that fits a 2-word slot keeps the third word. -/
theorem w2_put {s : Slot} {n : Nat} {p : FieldPos} (hf : p.Fits n 2) (v : BitVec n) :
    (s.put p v).w2 = s.w2 := by
  have hne : (2 : Fin 3) ≠ p.word := by
    intro h
    have hlt := hf.1
    simp [← h] at hlt
  exact (word_put s p v 2).trans (if_neg hne)

/-- The third word of an encoded 2-word order is 0. -/
theorem w2_encodeSlot {e : Encoding} {i : Instr} (hw : i.WellFormed e) (hs : i.kind.size ≠ 3) :
    (encodeSlot e i).w2 = 0 := by
  have hl := hw.2
  cases i <;> simp only [Instr.kind, OrderKind.size, ne_eq, not_true_eq_false, FieldLayout.wfFor,
    decide_eq_true_eq] at hs hl <;> simp only [encodeSlot, putFields]
  case seek =>
    simp only [SeekLayout.wf, Bool.and_eq_true, decide_eq_true_eq] at hl
    obtain ⟨⟨f1, f2, f3⟩, -⟩ := hl
    rw [w2_put f3, w2_put f2, w2_put f1]; rfl
  case selDma => rw [w2_put hl.2.1, w2_put hl.1]; rfl
  case halt | stall => rfl
  -- the orders of one field
  all_goals rw [w2_put hl]; rfl

/-- Settles O1: the head of the words names the order's kind, so the decoder reads the slot the
encoder filled, and every field of it reads back. -/
theorem decodeOfEncode : Obligations.DecodeOfEncode := by
  intro e i rest hw
  have hk : kindOf e.codes (codeField (encodeSlot e i).w0) = some i.kind := by
    rw [(encodedHead i e hw).2.1, kindOf_codeOf _ hw.1]
  have hslot : (⟨(encodeSlot e i).w0, (encodeSlot e i).w1,
      if i.kind.size = 3 then (encodeSlot e i).w2 else 0⟩ : Slot) = encodeSlot e i := by
    split
    · rfl
    · rw [← w2_encodeSlot hw ‹_›]
  calc decode e ((encodeSlot e i).words i.kind.size ++ rest)
      = .order (decodeSlot e.layout i.kind (encodeSlot e i)) rest := by
        rw [decode_words hk, hslot]
    _ = .order i rest := by rw [decodeSlot_encodeSlot hw]

/-- Settles O2: the fourteen examples, each encoded and decoded. -/
theorem specExamplesEncodeAndDecode : Obligations.SpecExamplesEncodeAndDecode := by
  unfold Obligations.SpecExamplesEncodeAndDecode
  decide

/-! ### What the decoder looks at -/

/-- Three or more words that begin with the code of a kind decode to the order of their slot, and
the kind's size is taken (R94). -/
theorem decode_of_kindOf {e : Encoding} {s : Slot} {k : OrderKind}
    (hk : kindOf e.codes (codeField s.w0) = some k) (rest : List Word) :
    decode e (s.w0 :: s.w1 :: s.w2 :: rest) =
      .order (decodeSlot e.layout k ⟨s.w0, s.w1, if k.size = 3 then s.w2 else 0⟩)
        ((s.w0 :: s.w1 :: s.w2 :: rest).drop k.size) := by
  cases k <;> simp [decode, OrderKind.size, hk]

/-- A first word of no kind's code is unrecognized (R93). -/
theorem decode_of_kindOf_none {e : Encoding} {w0 : Word} (ws : List Word)
    (hk : kindOf e.codes (codeField w0) = none) :
    decode e (w0 :: ws) = .unrecognized (codeField w0) := by
  simp [decode, hk]

/-- The order of a slot has the kind it was decoded as. -/
@[simp] theorem kind_decodeSlot (l : FieldLayout) (k : OrderKind) (s : Slot) :
    (decodeSlot l k s).kind = k := by
  cases k <;> rfl

/-- Slots that agree on the named bits of a kind agree on every field the named bits cover. -/
theorem field_eq_of_sameNamedBits {k : OrderKind} {s t : Slot} (h : SameNamedBits k s t)
    {p : FieldPos} {n : Nat}
    (hp : ∀ i < n, ((namedBits k).word p.word).getLsbD (p.lo + i) = true) :
    s.field p n = t.field p n := by
  have hword : s.word p.word &&& (namedBits k).word p.word =
      t.word p.word &&& (namedBits k).word p.word := by
    match p.word with
    | 0 => exact h.1
    | 1 => exact h.2.1
    | 2 => exact h.2.2
  apply BitVec.eq_of_getLsbD_eq
  intro i hi
  have hbit := congrArg (·.getLsbD (p.lo + i)) hword
  rw [getLsbD_field, getLsbD_field]
  simpa [hi, hp i hi] using hbit

/-- The named bits of every kind hold the code and the flag (R80, R81). -/
theorem head_eq_of_sameNamedBits {k : OrderKind} {s t : Slot} (h : SameNamedBits k s t) :
    codeField s.w0 = codeField t.w0 ∧ condFlag s.w0 = condFlag t.w0 := by
  have hcode : s.field ⟨0, 12⟩ 4 = t.field ⟨0, 12⟩ 4 :=
    field_eq_of_sameNamedBits h (by cases k <;> decide)
  have hflag : s.field ⟨0, 11⟩ 1 = t.field ⟨0, 11⟩ 1 :=
    field_eq_of_sameNamedBits h (by cases k <;> decide)
  have hbit (u : Slot) : condFlag u.w0 = (u.field ⟨0, 11⟩ 1).getLsbD 0 :=
    (getLsbD_field u ⟨0, 11⟩ 1 0).symm
  exact ⟨hcode, by rw [hbit, hbit, hflag]⟩

/-- R92: under the default layout the order of a slot depends on the named bits of its kind only. -/
theorem decodeSlot_eq_of_sameNamedBits {k : OrderKind} {s t : Slot} (h : SameNamedBits k s t) :
    decodeSlot .standard k s = decodeSlot .standard k t := by
  have hc := (head_eq_of_sameNamedBits h).2
  have hf {p : FieldPos} {n : Nat} := field_eq_of_sameNamedBits h (p := p) (n := n)
  cases k <;> simp (disch := decide) only [decodeSlot, hc, hf]

/-- Settles O3: the named bits hold the code, so both slots decode as the same kind, and every
field of that kind. -/
theorem unnamedBitsIgnored : Obligations.UnnamedBitsIgnored := by
  intro k s t hk h
  have hk' : kindOf OrderCode.standard (codeField t.w0) = some k :=
    (head_eq_of_sameNamedBits h).1 ▸ hk
  have hslot : SameNamedBits k ⟨s.w0, s.w1, if k.size = 3 then s.w2 else 0⟩
      ⟨t.w0, t.w1, if k.size = 3 then t.w2 else 0⟩ := by
    refine ⟨h.1, h.2.1, ?_⟩
    dsimp only
    split
    · exact h.2.2
    · rfl
  rw [decode_of_kindOf (e := .standard) hk, decode_of_kindOf (e := .standard) hk']
  exact ⟨congrArg some (decodeSlot_eq_of_sameNamedBits hslot), rfl⟩

/-- R94: the sizes of the kinds. -/
theorem orderKind_size_eq (k : OrderKind) :
    k.size = if k = .format ∨ k = .read ∨ k = .write then 3 else 2 := by
  cases k <;> rfl

/-- Settles O4: words that decode begin with the code of a kind, and the order is of that kind. -/
theorem sizeIsOfTheCodeAlone : Obligations.SizeIsOfTheCodeAlone := by
  intro e w0 w1 w2 rest ws i h
  cases hk : kindOf e.codes (codeField w0) with
  | none =>
    rw [decode_of_kindOf_none _ hk] at h
    cases h
  | some k =>
    rw [decode_of_kindOf (s := ⟨w0, w1, w2⟩) hk] at h
    cases h
    simp only [Instr.size, kind_decodeSlot]
    exact ⟨trivial, orderKind_size_eq k, trivial⟩

/-- A code is of no kind exactly when `ORDER_CODE` gives it to none. -/
theorem kindOf_eq_none_iff (m : OrderCode) (code : BitVec 4) :
    kindOf m code = none ↔ ∀ k : OrderKind, m.codeOf k ≠ code := by
  have hall (k : OrderKind) : k ∈ OrderKind.all := by cases k <;> decide
  simp [kindOf, hall]

/-- Settles O5: the decoder's first test, the search through all kinds, and the sixteen default
codes. -/
theorem unrecognizedCodes : Obligations.UnrecognizedCodes :=
  ⟨fun _ _ ws hk => decode_of_kindOf_none ws hk, kindOf_eq_none_iff, by decide⟩

end Sys2Proof
end

section
/-! PROOF. What executing an order gives, from its own part: the runs listed by `Ran` are
functional, so one run determines `exec`; and what every run leaves unchanged (R40). -/

namespace Sys2Proof.Machine

open Sys2Proof.Config

/-! ### One run determines `exec` -/

/-- Every order answers a next state in every state. -/
theorem exec_total (i : Instr) (s : State) : ∃ t, exec i s = .next t := by
  cases i <;> exact ⟨_, rfl⟩

/-- The own part of an order leaves one state: where an order has several runs, their conditions
exclude each other. -/
theorem Ran.functional {i : Instr} {s t u : State} (h : Ran i s t) (h' : Ran i s u) : t = u := by
  cases h
  case stStatus | stStatusOutside | stOar | stOarOutside | selUnit | selUnitBad =>
    cases h' <;> simp_all
  case readNotReady | readNoChannel | readZeroCount | readOutside =>
    cases h' <;> simp_all
  case readShort | read =>
    -- the file is long enough or it is not
    cases h' <;> simp_all
    all_goals omega
  all_goals
    cases h'
    rfl

/-- The advance after the draw is what a skip leaves (R125). -/
theorem advance_afterCond (c : Bool) (k : OrderKind) (s : State) :
    advance k (afterCond c s) = skipped c k s := by
  cases c <;> rfl

/-- An order that is skipped only advances (R125). -/
theorem exec_of_not_condHolds {i : Instr} {s : State} (hc : condHolds i.cond s = false) :
    exec i s = .next (skipped i.cond i.kind s) := by
  obtain ⟨t, ht⟩ := exec_total i s
  rcases exec_next_cases ht with ⟨-, rfl⟩ | ⟨hc', -⟩
  · rw [ht, advance_afterCond]
  · rw [hc] at hc'; cases hc'

/-- An order whose condition holds leaves the state of its own part. -/
theorem exec_of_ran {i : Instr} {s t : State} (hc : condHolds i.cond s = true)
    (h : Ran i (afterCond i.cond s) t) : exec i s = .next t := by
  obtain ⟨u, hu⟩ := exec_total i s
  rcases exec_next_cases hu with ⟨hc', -⟩ | ⟨-, hran⟩
  · rw [hc] at hc'; cases hc'
  · rw [hu, h.functional hran]

/-- Executed and skipped together: one run determines `exec`. -/
theorem exec_eq_of_ran {i : Instr} {s t : State} (h : Ran i (afterCond i.cond s) t) :
    exec i s = .next (if condHolds i.cond s then t else skipped i.cond i.kind s) := by
  cases hc : condHolds i.cond s with
  | true => exact exec_of_ran hc h
  | false => exact exec_of_not_condHolds hc

/-- The own part of an order that answers a next state ran where the flag is clear. -/
theorem ran_of_exec {i : Instr} {s t : State} (hc : i.cond = false) (h : exec i s = .next t) :
    Ran i s t := by
  rcases exec_next_cases h with ⟨h', -⟩ | ⟨-, hran⟩
  · rw [hc] at h'; cases h'
  · rwa [hc] at hran

/-! ### Frames of a run -/

/-- What the own part of an order never changes (R40, R109). -/
theorem Ran.keeps_machine {i : Instr} {s t : State} (h : Ran i s t) :
    t.acc = s.acc ∧ t.keys = s.keys ∧ t.pc = s.pc ∧ t.store = s.store ∧ t.params = s.params ∧
      t.inputs = s.inputs ∧ t.live = s.live ∧ t.draws = s.draws ∧
      t.dev = s.dev ∧ t.others = s.others ∧ t.consoleIn = s.consoleIn ∧
      t.consoleOut = s.consoleOut ∧ t.panel = s.panel := by
  cases h <;> simp

/-- Memory is written by the storing orders only. -/
theorem Ran.keeps_mem {i : Instr} {s t : State} (h : Ran i s t) (h1 : i.kind ≠ .stStatus)
    (h2 : i.kind ≠ .stOar) (h3 : i.kind ≠ .read) : t.mem = s.mem := by
  cases h <;> simp_all [Instr.kind]

/-- The register bank is written by a Read only. -/
theorem Ran.keeps_dmx {i : Instr} {s t : State} (h : Ran i s t) (hi : i.kind ≠ .read) :
    t.dmx = s.dmx := by
  cases h <;> simp_all [Instr.kind]

/-- Status and events are written by a Read or a SelectUnit only. -/
theorem Ran.keeps_status_events {i : Instr} {s t : State} (h : Ran i s t) (h1 : i.kind ≠ .read)
    (h2 : i.kind ≠ .selUnit) : t.status = s.status ∧ t.events = s.events := by
  cases h <;> simp_all [Instr.kind]

/-- The selection and the open file are written by a SelectUnit only. -/
theorem Ran.keeps_units {i : Instr} {s t : State} (h : Ran i s t) (hi : i.kind ≠ .selUnit) :
    t.selUnit = s.selUnit ∧ t.openUnit = s.openUnit := by
  cases h <;> simp_all [Instr.kind]

/-- Settles O37: a skip changes the OAR and takes a draw; a run changes what its kind may. -/
theorem orderFrame : Obligations.OrderFrame := by
  intro i s t h
  rcases exec_next_cases h with ⟨-, rfl⟩ | ⟨-, hran⟩
  · simp
  · have hm := hran.keeps_machine
    have hmem := hran.keeps_mem
    have hdmx := hran.keeps_dmx
    have hstatus := hran.keeps_status_events
    have hunits := hran.keeps_units
    have hdma := hran.keeps_dmaSelection
    simp only [afterCond_acc, afterCond_keys, afterCond_pc, afterCond_store, afterCond_params,
      afterCond_inputs, afterCond_live, afterCond_dev, afterCond_others, afterCond_consoleIn,
      afterCond_consoleOut, afterCond_panel, afterCond_mem, afterCond_dmx, afterCond_status,
      afterCond_events, afterCond_selUnit, afterCond_openUnit, afterCond_dmaChan,
      afterCond_dmaNch] at hm hmem hdmx hstatus hunits hdma
    exact ⟨hm, fun h1 h2 h3 b => by rw [hmem h1 h2 h3], hdmx, hstatus, hunits, hdma⟩

end Sys2Proof.Machine
end

section
/-! PROOF. The results of the program orders and of the disk orders that transfer nothing (R141 to
R146, R152, R170 to R176): each is the run of its own part, or the skip. -/

namespace Sys2Proof.Machine

open Sys2Proof.Config

/-! ### Fetch and step -/

section
variable {s : State}

/-- R122: `w0` outside memory. -/
theorem fetch_of_outside (h0 : ¬ s.oar.toNat < s.params.memWords) :
    fetch s = .error (.memoryOutOfRange s.oar) := by
  simp [fetch, memRead_eq, h0]

/-- R93, R122: a code of no kind. -/
theorem fetch_of_unrecognized (h0 : s.oar.toNat < s.params.memWords)
    (hk : kindOf s.params.encoding.codes (codeField (slotAt s).w0) = none) :
    fetch s = .error (.unrecognizedOrder (codeField (slotAt s).w0) s.oar) := by
  simp only [slotAt] at hk
  simp [fetch, memRead_of_lt h0, hk, slotAt]

variable {k : OrderKind} (h0 : s.oar.toNat < s.params.memWords)
  (hk : kindOf s.params.encoding.codes (codeField (slotAt s).w0) = some k)
include h0 hk

/-- R122: `w1` outside memory. -/
theorem fetch_of_outside_w1 (h1 : ¬ (s.oar + 1).toNat < s.params.memWords) :
    fetch s = .error (.memoryOutOfRange (s.oar + 1)) := by
  simp only [slotAt] at hk
  simp only [fetch, memRead_of_lt h0, hk, memRead_eq s (s.oar + 1), if_neg h1]

/-- R122: `w2` of a 3-word order outside memory. -/
theorem fetch_of_outside_w2 (h1 : (s.oar + 1).toNat < s.params.memWords) (h3 : k.size = 3)
    (h2 : ¬ (s.oar + 2).toNat < s.params.memWords) :
    fetch s = .error (.memoryOutOfRange (s.oar + 2)) := by
  simp only [slotAt] at hk
  simp only [fetch, memRead_of_lt h0, hk, memRead_of_lt h1, if_pos h3, memRead_eq s (s.oar + 2),
    if_neg h2]

/-- R121: the whole slot in memory. -/
theorem fetch_of_kindOf (h1 : (s.oar + 1).toNat < s.params.memWords)
    (h2 : k.size = 3 → (s.oar + 2).toNat < s.params.memWords) :
    fetch s = .ok (decodeSlot s.params.encoding.layout k
      ⟨(slotAt s).w0, (slotAt s).w1, if k.size = 3 then (slotAt s).w2 else 0⟩) := by
  simp only [slotAt] at hk ⊢
  by_cases h3 : k.size = 3
  · simp only [fetch, memRead_of_lt h0, hk, memRead_of_lt h1, if_pos h3, memRead_of_lt (h2 h3)]
  · simp only [fetch, memRead_of_lt h0, hk, memRead_of_lt h1, if_neg h3]

end

/-- A step of the running interpreter takes the fatal condition of its fetch (R122, R201). -/
theorem step_of_fetch_error {s : State} {r : Fault} (hrun : s.run = .running)
    (hf : fetch s = .error r) : step s = .next { s with run := .faulted r } := by
  simp [step, hrun, orderStep, hf, raise]

/-- A step of the running interpreter executes the order it fetched, inside its call (R102, R120).
-/
theorem step_of_fetch_ok {s t : State} {i : Instr} (hrun : s.run = .running)
    (hf : fetch s = .ok i) (hi : exec i s = .next t) : step s = .next (endCall t) := by
  simp [step, hrun, orderStep, hf, hi, inCall]

/-- R103: the call signals success exactly where the interpreter has become idle. -/
theorem endCall_eq (s : State) : endCall s = if s.run = .idle then successSkip s else s := by
  cases h : s.run <;> simp [endCall, h]

/-- Settles O7: each clause is a fetch that answers the fault, which the step raises. -/
theorem fetchFaultsInOrder : Obligations.FetchFaultsInOrder :=
  fun _ hrun =>
    ⟨fun h0 => step_of_fetch_error hrun (fetch_of_outside h0), fun h0 =>
      ⟨fun hk => step_of_fetch_error hrun (fetch_of_unrecognized h0 hk), fun _ hk =>
        ⟨fun h1 => step_of_fetch_error hrun (fetch_of_outside_w1 h0 hk h1), fun h1 h3 h2 =>
          step_of_fetch_error hrun (fetch_of_outside_w2 h0 hk h1 h3 h2)⟩⟩⟩

/-- The fetch answers what the decoder reads from the slot at the OAR. -/
theorem fetch_of_decode {s : State} {i : Instr} {rest : List Word} (hmem : SlotInMemory s i.size)
    (hd : decode s.params.encoding [(slotAt s).w0, (slotAt s).w1, (slotAt s).w2] =
      .order i rest) : fetch s = .ok i := by
  cases hk : kindOf s.params.encoding.codes (codeField (slotAt s).w0) with
  | none =>
    rw [decode_of_kindOf_none _ hk] at hd
    cases hd
  | some k =>
    rw [decode_of_kindOf hk] at hd
    injection hd with hi
    have hsize : i.size = k.size := by rw [← hi, Instr.size, kind_decodeSlot]
    have h2 : 2 ≤ k.size := by rw [orderKind_size_eq]; split <;> decide
    have h0 : s.oar.toNat < s.params.memWords := by simpa using hmem 0 (by omega)
    rw [fetch_of_kindOf h0 hk (hmem 1 (by omega)) (fun h3 => hmem 2 (by omega)), hi]

/-- Settles O6: the fetch answers the decoded order, which answers a next state. -/
theorem stepRunsTheDecodedOrder : Obligations.StepRunsTheDecodedOrder := by
  intro s i rest hrun hmem hd
  obtain ⟨t, ht⟩ := exec_total i s
  exact ⟨t, ht, by rw [step_of_fetch_ok hrun (fetch_of_decode hmem hd) ht, endCall_eq]⟩

/-- Settles O43: the two branches of the signal. -/
theorem successSkipResult : Obligations.SuccessSkipResult :=
  fun _ => ⟨fun h => if_pos h, fun h => if_neg (not_not_intro h)⟩

/-! ### Results -/

/-- An order whose own part is the advance answers the same executed and skipped. -/
theorem exec_of_ran_advance {i : Instr} {s : State}
    (h : Ran i (afterCond i.cond s) (advance i.kind (afterCond i.cond s))) :
    exec i s = .next (skipped i.cond i.kind s) := by
  rw [exec_eq_of_ran h, advance_afterCond, ite_self]

/-- Settles O11: the own part of a Halt, or the skip. -/
theorem haltResult : Obligations.HaltResult :=
  fun c _ => exec_eq_of_ran (.halt c _)

/-- Settles O12: the own part of each is the advance. -/
theorem noEffectOrdersOnlyAdvance : Obligations.NoEffectOrdersOnlyAdvance :=
  fun c rs t h r re cl _ =>
    ⟨exec_of_ran_advance (.format c rs t h r _), exec_of_ran_advance (.write c rs t h r _),
      exec_of_ran_advance (.seek c t re cl _), exec_of_ran_advance (.stall c _)⟩

/-- Settles O13: the executed and the skipped Jump differ in the OAR only. -/
theorem jumpResult : Obligations.JumpResult := by
  intro c target s
  rw [exec_eq_of_ran (.jump c target _)]
  exact congrArg Host.Outcome.next
    (apply_ite (fun a : Word => { afterCond c s with oar := a }) _ _ _).symm

/-- Settles O14: the own part raises F2 with the order's address, which the draw left alone. -/
theorem interruptResult : Obligations.InterruptResult := by
  intro c vector s
  rw [exec_eq_of_ran (.interrupt c vector _), afterCond_oar]
  rfl

/-- Settles O15: the own part of a SelectDMA, or the skip. -/
theorem selectDmaResult : Obligations.SelectDmaResult := by
  intro c channel nch s
  rw [exec_eq_of_ran (.selDma c channel nch _)]
  cases c <;> rfl

/-- Settles O16: the target is in memory, so the own part writes and advances. -/
theorem storeStatusResult : Obligations.StoreStatusResult := by
  intro c target s h
  rw [exec_eq_of_ran (.stStatus c target _ (by simpa using h))]
  cases c <;> rfl

/-- R174: the word StoreOAR writes, as a case distinction. -/
theorem storeOarWord_eq (v : StoreOarValue) (a : Word) :
    storeOarWord v a = if v = .self then a else a + 2 := by
  cases v <;> rfl

/-- Settles O17: as for StoreStatus, with the word of `STOREOAR_VALUE`. -/
theorem storeOarResult : Obligations.StoreOarResult := by
  intro c target s h
  rw [exec_eq_of_ran (.stOar c target _ (by simpa using h)), storeOarWord_eq]
  cases c <;> rfl

/-- Settles O18: the own part of each raises F5. -/
theorem storeOutsideMemoryFaults : Obligations.StoreOutsideMemoryFaults :=
  fun target s h =>
    ⟨exec_of_ran rfl (.stStatusOutside false target s h),
      exec_of_ran rfl (.stOarOutside false target s h)⟩

/-- A word write leaves every cell outside the word alone. -/
theorem readByte_writeWord_ne (m : Memory) (a v : Word) {j : Nat} (h : j / 2 ≠ a.toNat) :
    Memory.readByte (m.writeWord a v) j = m.readByte j := by
  rw [readByte_writeWord, if_neg (by omega), if_neg (by omega)]

/-- Settles O19: both orders leave a word write, which reads back and changes no other word. -/
theorem storedWordReadsBack : Obligations.StoredWordReadsBack := by
  intro target s t u h ht hu
  obtain rfl := (ran_of_exec rfl ht).functional (.stStatus false target s h)
  obtain rfl := (ran_of_exec rfl hu).functional (.stOar false target s h)
  exact ⟨memRead_ok.mpr ⟨h, by simp⟩, memRead_ok.mpr ⟨h, by simp [storeOarWord_eq]⟩,
    fun b hb => ⟨readByte_writeWord_ne _ _ _ hb, readByte_writeWord_ne _ _ _ hb⟩⟩

/-- Settles O10: the StoreStatus leaves the OAR at its target, where the fetch reads the word
stored. -/
theorem storedWordIsFetchedNext : Obligations.StoredWordIsFetchedNext := by
  intro s t h ht
  have hrun := (ran_of_exec rfl ht).functional (.stStatus false (s.oar + 2) s h)
  have hoar : t.oar = s.oar + 2 := by rw [hrun]; rfl
  have hparams : t.params = s.params := by rw [hrun]; rfl
  have hword : (slotAt t).w0 = s.status := by
    rw [hrun]
    exact readWord_writeWord_self _ _ _
  refine ⟨hoar, hword, fun hk => ?_⟩
  rw [← hword] at hk ⊢
  exact fetch_of_unrecognized (by rwa [hoar, hparams]) hk

/-- The same order without its flag has the same own part. -/
theorem Ran.unconditional {i : Instr} {s t : State} (h : Ran i s t) : Ran i.unconditional s t := by
  cases h <;> constructor <;> assumption

@[simp] theorem cond_unconditional (i : Instr) : i.unconditional.cond = false := by
  cases i <;> rfl

/-- Settles O8: with the draw taken the own part is that of the unconditional form. -/
theorem conditionalOrderExecutesOrSkips : Obligations.ConditionalOrderExecutesOrSkips := by
  intro i s hcond
  obtain ⟨t, ht⟩ := exec_total i s
  have hdraw : condHolds i.cond s = Config.drawCond s.draws := by simp [condHolds, hcond]
  have hafter : afterCond i.cond s = { s with draws := s.draws + 1 } := by
    simp [afterCond, hcond]
  rcases exec_next_cases ht with ⟨hc, rfl⟩ | ⟨hc, hran⟩
  · rw [ht, if_neg (by simp [← hdraw, hc]), hafter]
    rfl
  · rw [hafter] at hran
    rw [ht, if_pos (hdraw ▸ hc), exec_of_ran (by simp) (by simpa using hran.unconditional)]

/-- Where the OAR is after the own part of an order, from a running state (R126, R177). -/
theorem Ran.oar_cases {i : Instr} {s t : State} (h : Ran i s t) (hrun : s.run = .running) :
    (t.run = .running →
      t.oar = s.oar + BitVec.ofNat 16 i.size ∨ ∃ c a, i = .jump c a ∧ t.oar = a) ∧
    (t.run ≠ .running → t.oar = s.oar) := by
  cases h <;> simp [hrun, Instr.size, Instr.kind]

/-- Settles O9: a skip advances; the own part of each order says where the OAR is. -/
theorem oarAdvancesJumpsOrStays : Obligations.OarAdvancesJumpsOrStays := by
  intro i s t hrun h
  rcases exec_next_cases h with ⟨-, rfl⟩ | ⟨-, hran⟩
  · exact ⟨fun _ => .inl (by simp [Instr.size]), fun hne => absurd (by simpa [skipped]) hne⟩
  · simpa using hran.oar_cases (by simpa using hrun)

end Sys2Proof.Machine
end

section
/-! PROOF. SelectUnit (R96, R148, R149): the unit of a field, and what becomes of the open file. -/

namespace Sys2Proof.Machine

open Sys2Proof.Config

/-- Settles O20: under `fault` the one-hot cases in turn; under `literal` the sixteen fields. -/
theorem unitIndexOfEveryField : Obligations.UnitIndexOfEveryField := by
  refine ⟨fun v => ?_, fun v => ⟨literalIndex v, rfl, by revert v; decide⟩⟩
  simp only [unitIndex, oneHotIndex]
  split_ifs <;> rfl

/-- The selected unit's file is already open (R148). -/
theorem changeUnit_of_open {u : UnitIndex} {s : State} (h : s.openUnit = some u) :
    changeUnit u s = s := by
  simp [changeUnit, h]

/-- The unit's file is present and not open: the open file is closed and it opens (R148). -/
theorem changeUnit_of_present {u : UnitIndex} {s : State} (h : s.openUnit ≠ some u)
    (hp : present s u = true) :
    changeUnit u s =
      { s with
        openUnit := some u
        events := s.events ++ s.openUnit.toList.map Event.closed ++ [.opened u true]
        status := if s.params.nrClearOnSelect then s.status &&& ~~~s.params.notReadyMask
          else s.status } := by
  rcases changeUnit_cases u s with ⟨ho, -⟩ | ⟨-, -, e⟩ | ⟨-, hn, -⟩
  · exact absurd ho h
  · exact e
  · rw [hp] at hn; cases hn

/-- The unit's file is absent: the open file is closed and the controller is not ready (R148). -/
theorem changeUnit_of_absent {u : UnitIndex} {s : State} (h : s.openUnit ≠ some u)
    (hp : present s u = false) :
    changeUnit u s =
      { s with
        openUnit := none
        events := s.events ++ s.openUnit.toList.map Event.closed ++ [.opened u false]
        status := s.status ||| s.params.notReadyMask } := by
  rcases changeUnit_cases u s with ⟨ho, -⟩ | ⟨-, hn, -⟩ | ⟨-, -, e⟩
  · exact absurd ho h
  · rw [hp] at hn; cases hn
  · exact e

/-- A SelectUnit whose field names a unit. -/
theorem exec_selUnit {f : BitVec 4} {u : UnitIndex} {s : State} (c : Bool)
    (hu : unitIndex s.params.unitFieldPolicy f = .ok u) :
    exec (.selUnit c f) s =
      .next (if condHolds c s then
          advance .selUnit (changeUnit u (selectUnit u (afterCond c s)))
        else skipped c .selUnit s) :=
  exec_eq_of_ran (.selUnit c f u _ (by simpa using hu))

/-- Settles O21: the unit is selected and its open file stays. -/
theorem selectOpenUnitResult : Obligations.SelectOpenUnitResult := by
  intro c f u s hu ho
  rw [exec_selUnit c hu, changeUnit_of_open (by simpa using ho)]
  cases c <;> rfl

/-- Settles O22: the unit change opens the present file. -/
theorem selectPresentUnitResult : Obligations.SelectPresentUnitResult := by
  intro c f u s hu ho hp
  rw [exec_selUnit c hu, changeUnit_of_present (by simpa using ho) (by simpa using hp)]
  cases c <;> rfl

/-- Settles O23: the unit change finds the file absent. -/
theorem selectAbsentUnitResult : Obligations.SelectAbsentUnitResult := by
  intro c f u s hu ho hp
  rw [exec_selUnit c hu, changeUnit_of_absent (by simpa using ho) (by simpa using hp)]
  cases c <;> rfl

/-- Settles O24: no one-hot case answers a unit, so the own part raises F8. -/
theorem badUnitFieldFaults : Obligations.BadUnitFieldFaults := by
  intro f s hpol h1 h2 h4 h8
  have hbad : unitIndex s.params.unitFieldPolicy f = .error (.badUnitField f) := by
    rw [hpol, unitIndexOfEveryField.1 f, if_neg h1, if_neg h2, if_neg h4, if_neg h8]
  exact exec_of_ran rfl (.selUnitBad false f s hbad)

/-- Settles O25: the first SelectUnit left the unit selected and open, so the second selects it
again and finds it open. -/
theorem selectUnitIdempotent : Obligations.SelectUnitIdempotent := by
  intro f u s t hu ht ho
  have hrun := (ran_of_exec rfl ht).functional (.selUnit false f u s hu)
  have hsel : t.selUnit = some u := by simp [hrun]
  have hu' : unitIndex t.params.unitFieldPolicy f = .ok u := by simpa [hrun] using hu
  rw [selectOpenUnitResult false f u t hu' ho, ← hsel]
  rfl

/-- The bits of a mask that was ORed in are set. -/
theorem setMask_and_mask (x m : Word) : (x ||| m) &&& m = m := by
  ext i hi
  cases h : m[i] <;> simp [h]

/-- Settles O26: the unit is another one, and its file is present or absent. -/
theorem reselectClosesThenOpens : Obligations.ReselectClosesThenOpens := by
  intro f u v s t ho hne hv ht
  have hother : s.openUnit ≠ some v := by simpa [ho] using hne
  cases hp : present s v with
  | true =>
    obtain rfl := Host.Outcome.next.inj (ht.symm.trans
      (selectPresentUnitResult false f v s hv hother hp))
    simp [ho]
  | false =>
    obtain rfl := Host.Outcome.next.inj (ht.symm.trans
      (selectAbsentUnitResult false f v s hv hother hp))
    simp [ho, setMask_and_mask]

end Sys2Proof.Machine
end

section
/-! PROOF. What orders compute from their operand fields: the register pair (R56, R57), the word
count (R59), the CHS offset (R66, R67) and the file name (R65). -/

namespace Sys2Proof.Machine

open Sys2Proof.Config

/-! ### The register pair -/

theorem toNat_and_31 (ch : Word) : (ch &&& 0x1F).toNat = ch.toNat % 32 :=
  (BitVec.toNat_and ch 0x1F).trans (Nat.and_two_pow_sub_one_eq_mod ch.toNat 5)

/-- The pair index looks at bits [4:0] of the channel only (R56). -/
theorem pairIndex_and_31 (ch : Word) : pairIndex (ch &&& 0x1F) = pairIndex ch := by
  simp only [pairIndex, BitVec.and_assoc]
  rfl

theorem pairIndex_congr {ch ch' : Word} (h : ch &&& 0x1F = ch' &&& 0x1F) :
    pairIndex ch = pairIndex ch' := by
  rw [← pairIndex_and_31 ch, h, pairIndex_and_31]

/-- R56: bits [4:1] times 4 plus bit 0, checked on the 32 values of bits [4:0]. -/
theorem pairIndex_val (ch : Word) :
    (pairIndex ch).val = (ch.toNat % 32 / 2) * 4 + ch.toNat % 2 := by
  have h32 : ∀ x < 32, (pairIndex (BitVec.ofNat 16 x)).val = x / 2 * 4 + x % 2 := by decide
  have hx : ch &&& 0x1F = BitVec.ofNat 16 (ch.toNat % 32) := by
    apply BitVec.eq_of_toNat_eq
    rw [toNat_and_31, BitVec.toNat_ofNat]
    omega
  rw [← pairIndex_and_31, hx, h32 _ (by omega)]
  omega

/-- R57: the address register is the entry 2 higher. -/
theorem addrIndex_val {i : Fin 64} (h : i.val ≤ 61) : (addrIndex i).val = i.val + 2 := by
  have h2 : ((2 : Fin 64) : Nat) = 2 := rfl
  rw [addrIndex, Fin.val_add, h2]
  omega

/-- Settles O32: the entries of two pairs are compared by their formulas. -/
theorem pairIndexFormula : Obligations.PairIndexFormula := by
  have hval := pairIndex_val
  have hle (ch : Word) : (pairIndex ch).val ≤ 61 := by have := hval ch; omega
  have haddr (ch : Word) := addrIndex_val (hle ch)
  refine ⟨fun ch => ⟨hval ch, hle ch, by have := hval ch; omega, haddr ch⟩, by decide, ?_⟩
  intro ch ch' hne
  have hne' : ch.toNat % 32 ≠ ch'.toNat % 32 := by
    rw [← toNat_and_31, ← toNat_and_31]
    exact fun h => hne (BitVec.eq_of_toNat_eq h)
  have h1 := hval ch
  have h2 := hval ch'
  simp only [ne_eq, Fin.ext_iff, haddr]
  omega

/-! ### The word count -/

/-- The high 12 bits of a count register whose low 4 bits are any (R59). -/
theorem countField_shift_or (y : Word) (x : BitVec 4) :
    countField ((y <<< 4) ||| x.setWidth 16) = y.setWidth 12 := by
  ext i hi
  have hlt : 4 + i < 16 := by omega
  simp [countField, hlt, BitVec.getLsbD_eq_getElem, show i < 16 by omega]

theorem dmaWordCount_of_ne {p : ZeroCountPolicy} {c : Word} (h : countField c ≠ 0) :
    dmaWordCount p c = .ok (4096 - (countField c).toNat) := if_pos h

/-- Settles O33: the count field is read off the register's high 12 bits. -/
theorem dmaCountDecoding : Obligations.DmaCountDecoding := by
  refine ⟨fun p n x h1 h2 => ?_, fun x => ?_⟩
  · have hfield := countField_shift_or (BitVec.ofNat 16 (4096 - n)) x
    have hto : ((BitVec.ofNat 16 (4096 - n)).setWidth 12).toNat = 4096 - n := by
      rw [BitVec.toNat_setWidth, BitVec.toNat_ofNat]
      omega
    have hne : (BitVec.ofNat 16 (4096 - n)).setWidth 12 ≠ 0 := by
      intro h
      have h0 : 4096 - n = 0 := hto.symm.trans (congrArg BitVec.toNat h)
      omega
    rw [dmaWordCount_of_ne (by rwa [hfield]), hfield, hto]
    congr 1
    omega
  · have h0 : countField (x.setWidth 16) = 0 := by
      revert x
      decide
    simp [dmaWordCount, h0]

/-! ### The CHS offset -/

/-- R66, with the constants of R7 put in. -/
theorem chsOffset_eq (t : BitVec 10) (h : BitVec 6) (r : BitVec 8) :
    chsOffset t h r = (360 * t.toNat + 9 * h.toNat + r.toNat) * 2080 := by
  simp only [chsOffset, heads, sectors, sectorBytes]
  ring

/-- Settles O34: by the formula every clause is linear arithmetic in the fields' values. -/
theorem chsTranslation : Obligations.ChsTranslation := by
  have hbound (t : BitVec 10) (h : BitVec 6) (r : BitVec 8) :=
    And.intro t.isLt (And.intro h.isLt r.isLt)
  unfold Obligations.ChsTranslation
  simp only [chsOffset_eq, BitVec.lt_def, ← BitVec.toNat_inj]
  refine ⟨fun t h r => ⟨trivial, ?_⟩, by decide, fun t h r => Nat.dvd_mul_left _ _, ?_, ?_, ?_, ?_,
    by decide, by decide⟩
  · have := hbound t h r
    omega
  all_goals
    intros
    omega

/-! ### The file name -/

/-- A unit index is one digit, and different digits are different characters (R65). -/
theorem toDigits_unit_injective :
    ∀ u v : UnitIndex, Nat.toDigits 10 u.val = Nat.toDigits 10 v.val → u = v := by
  decide

/-- Settles O35: the names of one controller differ in the unit's digit only. -/
theorem fileNamesDiffer : Obligations.FileNamesDiffer := by
  refine ⟨fun dev u v h => toDigits_unit_injective u v ?_, by decide⟩
  have hlist := congrArg String.toList h
  simpa [fileName] using hlist

end Sys2Proof.Machine
end

section
/-! PROOF. Read (R143, R144, R58): the not-ready report, the faults in their order, the transfer,
and what a Read does not depend on. -/

namespace Sys2Proof.Machine

open Sys2Proof.Config

/-- Settles O27: with no file open the own part reports not-ready and advances. -/
theorem readWithNoFileOpenResult : Obligations.ReadWithNoFileOpenResult := by
  intro c rs t h r s ho
  rw [exec_eq_of_ran (.readNotReady c rs t h r _ (by simpa using ho))]
  cases c <;> rfl

/-- A refused count is one whose high 12 bits are 0 under `ZERO_COUNT_POLICY = fault` (R59). -/
theorem dmaWordCount_fault {c : Word} (h : countField c = 0) :
    dmaWordCount .fault c = .error (.dmaZeroCount c) := by
  simp [dmaWordCount, h]

/-- Settles O29: each clause is the run of that fault. -/
theorem readFaultsInOrder : Obligations.ReadFaultsInOrder := by
  intro rs tr h r s u ho
  refine ⟨fun hd => exec_of_ran rfl (.readNoChannel false rs tr h r s u ho hd), fun ch hd => ?_⟩
  refine ⟨fun hpol hc => ?_, fun n hn => ⟨fun k hk hout hin => ?_, fun hin hlen => ?_⟩⟩
  · have hcount : dmaWordCount s.params.zeroCountPolicy (dmxRead s (pairIndex ch)) =
        .error (.dmaZeroCount (dmxRead s (pairIndex ch))) := by
      rw [hpol, dmaWordCount_fault hc]
    exact exec_of_ran rfl (.readZeroCount false rs tr h r s u ch ho hd hcount)
  · have hfirst := (firstOutside_some s.params.memWords (dmxRead s (addrIndex (pairIndex ch)))
      _ n).mpr ⟨k, hk, rfl, hout, hin⟩
    exact exec_of_ran rfl (.readOutside false rs tr h r s u ch _ n ho hd hn hfirst)
  · have hnone := (firstOutside_none s.params.memWords _ n).mpr hin
    exact exec_of_ran rfl (.readShort false rs tr h r s u ch n ho hd hn hnone hlen)

/-! ### The transfer -/

section
variable {bs : List Byte} {off n : Nat} (hl : off + 2 * n ≤ bs.length)
include hl

/-- `2n` bytes from an offset of a file that is long enough form `n` words. -/
theorem length_wordsOfBytes_slice : (wordsOfBytes ((bs.drop off).take (2 * n))).length = n := by
  rw [length_wordsOfBytes, List.length_take, List.length_drop]
  omega

/-- Word `k` is formed from the file's bytes `off + 2k` and `off + 2k + 1`. -/
theorem getElem_wordsOfBytes_slice {k : Nat}
    (hk : k < (wordsOfBytes ((bs.drop off).take (2 * n))).length) :
    ∃ b b' : Byte, bs[off + 2 * k]? = some b ∧ bs[off + 2 * k + 1]? = some b' ∧
      (wordsOfBytes ((bs.drop off).take (2 * n)))[k] = (b ++ b' : BitVec (8 + 8)) := by
  have hkn : k < n := length_wordsOfBytes_slice hl ▸ hk
  have hlen : ((bs.drop off).take (2 * n)).length = 2 * n := by
    rw [List.length_take, List.length_drop]
    omega
  refine ⟨_, _, List.getElem?_eq_getElem (by omega), List.getElem?_eq_getElem (by omega), ?_⟩
  rw [getElem_wordsOfBytes _ k hk (by omega) (by omega)]
  simp only [List.getElem_take, List.getElem_drop, Nat.add_assoc]

end

@[simp] theorem dmxRead_advance (k : OrderKind) (s : State) (i : Fin 64) :
    dmxRead (advance k s) i = dmxRead s i := rfl

@[simp] theorem dmxRead_appendEvent (e : Event) (s : State) (i : Fin 64) :
    dmxRead (appendEvent e s) i = dmxRead s i := rfl

/-- The register pair after a transfer: the count is 0, the address has advanced, every other
register is as it was (R58). -/
theorem dmxRead_transferWrites (i j : Fin 64) (n : Nat) (bytes : List Byte) (s : State) :
    dmxRead (transferWrites i n bytes s) j =
      if j = addrIndex i then dmxRead s (addrIndex i) + BitVec.ofNat 16 n
      else if j = i then 0 else dmxRead s j := by
  simp only [transferWrites, dmxRead_dmxWrite]
  rfl

/-- A Read whose condition holds, and that meets no fault, leaves the transfer and the advance. -/
theorem ran_read_transfer {c : Bool} {tr : BitVec 10} {h : BitVec 6} {r : BitVec 8}
    {s : State} {u : UnitIndex} {ch : Word} {n : Nat} (rs : BitVec 4) (ho : s.openUnit = some u)
    (hd : s.dmaChan = some ch)
    (hn : dmaWordCount s.params.zeroCountPolicy (dmxRead s (pairIndex ch)) = .ok n)
    (hmem : ∀ k < n, (dmxRead s (addrIndex (pairIndex ch)) + BitVec.ofNat 16 k).toNat
      < s.params.memWords)
    (hlen : chsOffset tr h r + 2 * n ≤ (fileBytes s u).length) :
    Ran (.read c rs tr h r) (afterCond c s) (advance .read (transferWrites (pairIndex ch) n
      (((fileBytes s u).drop (chsOffset tr h r)).take (2 * n))
      (appendEvent (.readBytes u (chsOffset tr h r) (2 * n)) (afterCond c s)))) := by
  have hran := Ran.read c rs tr h r (afterCond c s) u ch n (by simpa using ho) (by simpa using hd)
    (by simpa using hn) (by simpa using (firstOutside_none _ _ n).mpr hmem) (by simpa using hlen)
  rwa [fileBytes_afterCond] at hran

/-- Settles O28: the memory of the next state is that of writing the transferred words, the
registers are those of the pair's update. -/
theorem readTransfersWords : Obligations.ReadTransfersWords := by
  intro c rs tr h r s u ch n ho hd hn hmem hlen
  cases hc : condHolds c s with
  | false =>
    exact ⟨_, exec_of_not_condHolds hc, fun _ => rfl, nofun⟩
  | true =>
    have hwords := length_wordsOfBytes_slice hlen
    have hn4096 := dmaWordCount_le hn
    have hpair (j : Fin 64) := dmxRead_transferWrites (pairIndex ch) j n
      (((fileBytes s u).drop (chsOffset tr h r)).take (2 * n))
      (appendEvent (.readBytes u (chsOffset tr h r) (2 * n)) (afterCond c s))
    have hne := addrIndex_ne (pairIndex ch)
    refine ⟨_, exec_of_ran hc (ran_read_transfer rs ho hd hn hmem hlen), nofun, fun _ =>
      ⟨fun k hk => ?_, fun x hx => ?_, ?_, ?_, fun j hj hj' => ?_, ?_⟩⟩
    · obtain ⟨b, b', hb, hb', hw⟩ := getElem_wordsOfBytes_slice hlen (k := k) (by omega)
      refine ⟨b, b', hb, hb', ?_⟩
      rw [← hw]
      simpa using readWord_writeWords _ s.mem (dmxRead s (addrIndex (pairIndex ch)))
        (by omega) k (by omega)
    · simpa using readByte_writeWords_ne _ s.mem (dmxRead s (addrIndex (pairIndex ch))) x
        (fun k hk => hx k (hwords ▸ hk))
    · simp [hpair, hne.symm]
    · simp [hpair]
    · simp [hpair, hj, hj']
    · cases c <;> rfl

end Sys2Proof.Machine
end

section
/-! PROOF. More of Read: what it does not depend on (R56, R142, R152), the second Read on a channel
(R241), and its memory frame (R58). -/

namespace Sys2Proof.Machine

open Sys2Proof.Config

/-- The state with another channel selected and another channel count field. -/
def withChannel (ch : Word) (n : BitVec 4) (s : State) : State :=
  { s with dmaChan := some ch, dmaNch := n }

theorem afterCond_withChannel (c : Bool) (ch : Word) (n : BitVec 4) (s : State) :
    afterCond c (withChannel ch n s) = withChannel ch n (afterCond c s) := by
  cases c <;> rfl

/-- The own part of a Read uses the selected channel through its register pair only. -/
theorem Ran.read_withChannel {c : Bool} {rs : BitVec 4} {tr : BitVec 10} {h : BitVec 6}
    {r : BitVec 8} {s t : State} {ch ch' : Word} (n : BitVec 4)
    (hp : pairIndex ch' = pairIndex ch) (hs : s.dmaChan = some ch)
    (hran : Ran (.read c rs tr h r) s t) :
    Ran (.read c rs tr h r) (withChannel ch' n s) (withChannel ch' n t) := by
  cases hran with
  | readNotReady _ _ _ _ _ _ ho => exact .readNotReady c rs tr h r _ ho
  | readNoChannel _ _ _ _ _ _ u ho hd => rw [hs] at hd; cases hd
  | readZeroCount _ _ _ _ _ _ u ch₁ ho hd hc =>
    cases hs.symm.trans hd
    rw [← hp] at hc ⊢
    exact .readZeroCount c rs tr h r (withChannel ch' n s) u ch' ho rfl hc
  | readOutside _ _ _ _ _ _ u ch₁ a k ho hd hc ha =>
    cases hs.symm.trans hd
    rw [← hp] at hc ha
    exact .readOutside c rs tr h r (withChannel ch' n s) u ch' a k ho rfl hc ha
  | readShort _ _ _ _ _ _ u ch₁ k ho hd hc ha hl =>
    cases hs.symm.trans hd
    rw [← hp] at hc ha
    exact .readShort c rs tr h r (withChannel ch' n s) u ch' k ho rfl hc ha hl
  | read _ _ _ _ _ _ u ch₁ k ho hd hc ha hl =>
    cases hs.symm.trans hd
    rw [← hp] at hc ha ⊢
    exact .read c rs tr h r (withChannel ch' n s) u ch' k ho rfl hc ha hl

/-- Settles O30: no meaning has a use for recsize, and equal bits [4:0] name the same pair. -/
theorem readIgnoresRecsizeAndHighChannelBits :
    Obligations.ReadIgnoresRecsizeAndHighChannelBits := by
  refine ⟨fun c rs rs' t h r s => rfl, fun c rs tr h r s t ch ch' n hch hd ht => ?_⟩
  change exec _ (withChannel ch' n s) = .next (withChannel ch' n t)
  rcases exec_next_cases ht with ⟨hc, rfl⟩ | ⟨hc, hran⟩
  · refine (exec_of_not_condHolds (s := withChannel ch' n s) hc).trans ?_
    cases c <;> rfl
  · refine exec_of_ran hc ?_
    rw [afterCond_withChannel]
    exact hran.read_withChannel n (pairIndex_congr hch.symm) (by simpa using hd)

/-- A Read that leaves the interpreter running with a file open has transferred, and the count
register of its channel is 0. -/
theorem Ran.count_zero_of_read {c : Bool} {rs : BitVec 4} {tr : BitVec 10} {h : BitVec 6}
    {r : BitVec 8} {s t : State} {u : UnitIndex} (ho : s.openUnit = some u)
    (hran : Ran (.read c rs tr h r) s t) (hrun : t.run = .running) :
    ∃ ch, s.dmaChan = some ch ∧ dmxRead t (pairIndex ch) = 0 := by
  cases hran with
  | readNotReady _ _ _ _ _ _ hn => rw [ho] at hn; cases hn
  | read _ _ _ _ _ _ _ ch _ _ hd =>
    exact ⟨ch, hd, by simp [dmxRead_transferWrites, (addrIndex_ne (pairIndex ch)).symm]⟩
  | _ => cases hrun

/-- Settles O31: the first Read left the count register of its channel 0, which the second one
reads. -/
theorem secondReadOnAChannelFaults : Obligations.SecondReadOnAChannelFaults := by
  intro rs rs' tr tr' h h' r r' s t u _ hpol ho ht hrun'
  have hran := ran_of_exec rfl ht
  obtain ⟨ch, hd, h0⟩ := hran.count_zero_of_read ho hrun'
  obtain ⟨-, -, -, -, hparams, -⟩ := hran.keeps_machine
  obtain ⟨-, hopen⟩ := hran.keeps_units (by simp [Instr.kind])
  obtain ⟨hchan, -⟩ := hran.keeps_dmaSelection (by simp [Instr.kind])
  have hcount : countField (dmxRead t (pairIndex ch)) = 0 := by rw [h0]; rfl
  rw [← h0]
  exact ((readFaultsInOrder rs' tr' h' r' t u (hopen.trans ho)).2 ch (hchan.trans hd)).1
    (hparams ▸ hpol) hcount

/-- What a Read does to memory: nothing, or the writes of a transfer whose buffer is in memory. -/
theorem Ran.read_mem {c : Bool} {rs : BitVec 4} {tr : BitVec 10} {h : BitVec 6} {r : BitVec 8}
    {s t : State} (hran : Ran (.read c rs tr h r) s t) :
    t.mem = s.mem ∨ ∃ u ch ws, s.openUnit = some u ∧ s.dmaChan = some ch ∧
      dmaWordCount s.params.zeroCountPolicy (dmxRead s (pairIndex ch)) = .ok ws.length ∧
      (∀ k < ws.length, (dmxRead s (addrIndex (pairIndex ch)) + BitVec.ofNat 16 k).toNat
        < s.params.memWords) ∧
      t.mem = s.mem.writeWords (dmxRead s (addrIndex (pairIndex ch))) ws := by
  cases hran with
  | read _ _ _ _ _ _ u ch n ho hd hc ha hl =>
    have hlen := length_wordsOfBytes_slice hl
    exact .inr ⟨u, ch, _, ho, hd, by rw [hlen, hc],
      fun k hk => (firstOutside_none _ _ n).mp ha k (by omega), rfl⟩
  | _ => exact .inl rfl

/-- Settles O38: a store is one word write, a Read the writes of its transfer. -/
theorem storingOrderFrame : Obligations.StoringOrderFrame := by
  refine ⟨fun c target s t ht b hb => ?_, fun c rs tr h r s t ht => ?_⟩
  · rcases ht with ht | ht <;> rcases exec_next_cases ht with ⟨-, rfl⟩ | ⟨-, hran⟩
    · simp
    · cases hran with
      | stStatus => simpa using readByte_writeWord_ne _ _ _ hb
      | stStatusOutside => simp
    · simp
    · cases hran with
      | stOar => simpa using readByte_writeWord_ne _ _ _ hb
      | stOarOutside => simp
  · rcases exec_next_cases ht with ⟨-, rfl⟩ | ⟨-, hran⟩
    · simp
    rcases hran.read_mem with hmem | ⟨u, ch, ws, ho, hd, hn, -, hmem⟩
    · simp [hmem]
    simp only [afterCond_openUnit, afterCond_dmaChan, afterCond_params, afterCond_mem,
      dmxRead_afterCond] at ho hd hn hmem
    refine ⟨fun ch' n hd' hn' b hb => ?_, fun hnone => by simp [ho, hd] at hnone⟩
    cases hd.symm.trans hd'
    cases hn.symm.trans hn'
    rw [hmem, readByte_writeWords_ne _ _ _ _ hb]

end Sys2Proof.Machine
end

section
/-! PROOF. Events, fatal conditions and the end of a program (R37, R103, R105, R203, R205). -/

namespace Sys2Proof.Machine

open Sys2Proof.Config

/-- A unit change appends at most a close and an open (R148). -/
theorem changeUnit_events (u : UnitIndex) (s : State) :
    ∃ es : List Event, (changeUnit u s).events = s.events ++ es ∧ es.length ≤ 2 := by
  rcases changeUnit_cases u s with ⟨-, e⟩ | ⟨-, -, e⟩ | ⟨-, -, e⟩ <;> rw [e]
  · exact ⟨[], by simp⟩
  · exact ⟨s.openUnit.toList.map Event.closed ++ [.opened u true], by simp, by simp⟩
  · exact ⟨s.openUnit.toList.map Event.closed ++ [.opened u false], by simp, by simp⟩

/-- Settles O39: a SelectUnit appends what its unit change does, a Read its own event, any other
order none. -/
theorem eventsOnlyAppended : Obligations.EventsOnlyAppended := by
  intro i s t ht
  rcases exec_next_cases ht with ⟨-, rfl⟩ | ⟨-, hran⟩
  · exact ⟨[], by simp⟩
  cases hran with
  | selUnit c f u => simpa [Instr.cond] using changeUnit_events u (selectUnit u (afterCond c s))
  | readShort _ _ tr h r _ u _ n => exact ⟨[.readBytes u (chsOffset tr h r) (2 * n)], by simp⟩
  | read _ _ tr h r _ u _ n => exact ⟨[.readBytes u (chsOffset tr h r) (2 * n)], by simp⟩
  | _ => exact ⟨[], by simp⟩

/-- The own part of an order that ends in a fatal condition (R203). -/
theorem Ran.faulted_cases {i : Instr} {s t : State} {r : Fault} (hran : Ran i s t)
    (hrun : s.run = .running) (hf : t.run = .faulted r) :
    t = { s with run := .faulted r } ∨
    ∃ u off n, r = .shortRead u off n ∧
      t = { s with events := s.events ++ [.readBytes u off n], run := .faulted r } := by
  cases hran with
  | readShort _ _ tr h rec _ u _ n =>
    obtain rfl := RunState.faulted.inj hf
    exact .inr ⟨u, _, _, rfl, rfl⟩
  | interrupt | stStatusOutside | stOarOutside | selUnitBad | readNoChannel | readZeroCount
  | readOutside =>
    obtain rfl := RunState.faulted.inj hf
    exact .inl rfl
  | halt => cases hf
  | _ => simp [hrun] at hf

/-- Settles O41: a skipped order ends in no fatal condition. -/
theorem faultingOrderWritesNothing : Obligations.FaultingOrderWritesNothing := by
  intro i s t r hrun ht hf
  rcases exec_next_cases ht with ⟨-, rfl⟩ | ⟨-, hran⟩
  · simp [hrun] at hf
  · simpa using hran.faulted_cases (by simpa using hrun) hf

/-- The own part of an order that ends a program is a Halt's (R103, R128). -/
theorem Ran.idle_cases {i : Instr} {s t : State} (hran : Ran i s t) (hrun : s.run = .running)
    (hidle : t.run = .idle) : ∃ c, i = .halt c ∧ t = { s with run := .idle } := by
  cases hran with
  | halt c => exact ⟨c, rfl, rfl⟩
  | _ => simp [hrun] at hidle

/-- A step of the running interpreter: a fatal condition of the fetch, or an order inside its
call. -/
theorem step_running_cases {s t : State} (hrun : s.run = .running) (h : step s = .next t) :
    (∃ r, fetch s = .error r ∧ t = raise r s) ∨
    (∃ i u, fetch s = .ok i ∧ exec i s = .next u ∧ t = endCall u) := by
  rcases step_next_cases h with ⟨-, hr⟩ | ⟨-, hi⟩ | ⟨hidle, -⟩ | ⟨hidle, -⟩
  · exact .inl hr
  · exact .inr hi
  all_goals simp [hrun] at hidle

/-- Settles O42: only a Halt's own part leaves an idle interpreter, and only there the call
signals. -/
theorem onlyHaltEndsAndSignals : Obligations.OnlyHaltEndsAndSignals := by
  intro s t hrun ht
  rcases step_running_cases hrun ht with ⟨r, -, rfl⟩ | ⟨i, u, hf, hu, rfl⟩
  · exact ⟨nofun, fun _ => ⟨rfl, rfl⟩⟩
  rw [endCall_run]
  refine ⟨fun hidle => ?_, fun hne => ?_⟩
  · rcases exec_next_cases hu with ⟨-, rfl⟩ | ⟨hc, hran⟩
    · simp [hrun] at hidle
    · obtain ⟨c, rfl, rfl⟩ := hran.idle_cases (by simpa using hrun) hidle
      exact ⟨c, hf, hc, rfl⟩
  · obtain ⟨⟨-, hkeys, hpc, -⟩, -⟩ := orderFrame i s u hu
    rw [endCall_eq, if_neg hne]
    exact ⟨hkeys, hpc⟩

/-- What the own part of an order does to the status (R205): only a SelectUnit of a file that is
not open and a Read with no file open change it, and only an open clears not-ready. -/
theorem Ran.status_cases {i : Instr} {s t : State} (hran : Ran i s t) :
    t.status = s.status ∨
    (t.status = s.status ||| s.params.notReadyMask ∧ ((∃ c f, i = .selUnit c f) ∨
      (∃ c rs tr h r, i = .read c rs tr h r) ∧ s.openUnit = none)) ∨
    (t.status = s.status &&& ~~~s.params.notReadyMask ∧ s.params.nrClearOnSelect = true ∧
      ∃ c f u, i = .selUnit c f ∧ t.openUnit = some u ∧ s.openUnit ≠ some u) := by
  cases hran with
  | selUnit c f u =>
    have hnot (h : (selectUnit u s).openUnit ≠ some u) : s.openUnit ≠ some u := h
    rcases changeUnit_cases u (selectUnit u s) with ⟨-, e⟩ | ⟨hne, -, e⟩ | ⟨-, -, e⟩ <;>
      rw [e]
    · exact .inl rfl
    · cases hclear : s.params.nrClearOnSelect with
      | true => exact .inr (.inr ⟨by simp [hclear], rfl, c, f, u, rfl, rfl, hne⟩)
      | false => exact .inl (by simp [hclear])
    · exact .inr (.inl ⟨rfl, .inl ⟨c, f, rfl⟩⟩)
  | readNotReady c rs tr h r _ ho =>
    exact .inr (.inl ⟨rfl, .inr ⟨⟨c, rs, tr, h, r, rfl⟩, ho⟩⟩)
  | _ => exact .inl rfl

/-- Settles O44: a step changes the status only by the own part of its order. -/
theorem notReadyCausesAndSticks : Obligations.NotReadyCausesAndSticks := by
  intro s t hrun ht
  rcases step_running_cases hrun ht with ⟨r, -, rfl⟩ | ⟨i, u, hf, hu, rfl⟩
  · exact ⟨fun hne => absurd rfl hne, fun hset => .inl hset⟩
  simp only [endCall_status, endCall_openUnit, hf, Except.ok.injEq]
  rcases exec_next_cases hu with ⟨-, rfl⟩ | ⟨-, hran⟩
  · simp
  have hcases := hran.status_cases
  simp only [afterCond_status, afterCond_params, afterCond_openUnit] at hcases
  rcases hcases with he | ⟨he, hcause⟩ | ⟨-, hclear, c, f, v, rfl, hv, hne⟩
  · exact ⟨fun hne => absurd he hne, fun hset => .inl (by rw [he, hset])⟩
  · exact ⟨fun _ => hcause, fun _ => .inl (by rw [he, setMask_and_mask])⟩
  · exact ⟨fun _ => .inl ⟨c, f, rfl⟩, fun _ => .inr ⟨hclear, c, f, v, rfl, hv, hne⟩⟩

end Sys2Proof.Machine
end

section
/-! PROOF. What a step keeps of the configuration (R8, R43), of memory (R50) and of the status
outside the not-ready bits (R22). -/

namespace Sys2Proof.Machine

open Sys2Proof.Config

/-! ### Memory and parameters of a step -/

/-- Taking a controller in hand touches neither memory nor the parameters. -/
theorem address_mem_params {dev : Nat} {s t : State} (h : address dev s = some t) :
    t.mem = s.mem ∧ t.params = s.params := by
  rcases (address_some h).2.2 with rfl | ⟨c, -, rfl⟩ <;> exact ⟨rfl, rfl⟩

/-- A dispatch call touches neither memory nor the parameters. -/
theorem dispatch_mem_params (cls : IoClass) (fn dev : Nat) (s : State) :
    (dispatch cls fn dev s).mem = s.mem ∧ (dispatch cls fn dev s).params = s.params := by
  rcases dispatch_cases cls fn dev s with ⟨t, ht, -, -, e⟩ | ⟨t, ht, -, e⟩ | ⟨-, e⟩ <;> rw [e]
  · simpa using address_mem_params ht
  · simpa using address_mem_params ht
  · rcases deviceCall_cases cls fn dev s with e | ⟨_, _, _, _, _, _, _, _, e⟩ <;> rw [e] <;>
      exact ⟨rfl, rfl⟩

/-- A teardown touches neither memory nor the parameters. -/
theorem teardown_mem_params (dev : Nat) (s : State) :
    (teardown dev s).mem = s.mem ∧ (teardown dev s).params = s.params := by
  simp only [teardown]
  split
  · simpa using address_mem_params ‹_›
  · exact ⟨rfl, rfl⟩

/-- What becomes of memory: nothing, or the writes of words that lie in it. -/
def WritesInMemory (s t : State) : Prop :=
  t.mem = s.mem ∨ ∃ (a : Word) (ws : List Word),
    (∀ k < ws.length, (a + BitVec.ofNat 16 k).toNat < s.params.memWords) ∧
    t.mem = s.mem.writeWords a ws

/-- One word written in memory. -/
theorem WritesInMemory.of_writeWord {s t : State} {a v : Word} (ha : a.toNat < s.params.memWords)
    (h : t.mem = s.mem.writeWord a v) : WritesInMemory s t := by
  refine .inr ⟨a, [v], fun k hk => ?_, h⟩
  obtain rfl : k = 0 := by simpa using hk
  simpa using ha

/-- The own part of an order writes in memory only. -/
theorem Ran.writesInMemory {i : Instr} {s t : State} (hran : Ran i s t) : WritesInMemory s t := by
  by_cases hread : i.kind = .read
  · cases i with
    | read =>
      rcases hran.read_mem with e | ⟨u, ch, ws, -, -, -, hin, e⟩
      · exact .inl e
      · exact .inr ⟨_, ws, hin, e⟩
    | _ => cases hread
  · cases hran with
    | stStatus _ _ _ ha => exact .of_writeWord ha rfl
    | stOar _ _ _ ha => exact .of_writeWord ha rfl
    | read | readNotReady | readNoChannel | readZeroCount | readOutside | readShort =>
      exact absurd rfl hread
    | selUnit => exact .inl (by simp)
    | _ => exact .inl rfl

/-- What a step does to memory and the parameters. -/
theorem step_mem_params {s t : State} (h : step s = .next t) :
    WritesInMemory s t ∧ t.params = s.params := by
  rcases step_next_cases h with ⟨-, r, -, rfl⟩ | ⟨-, i, u, -, hu, rfl⟩ | ⟨-, -, rfl⟩ |
    ⟨-, i, rest, -, hd⟩
  · exact ⟨.inl rfl, rfl⟩
  · obtain ⟨⟨-, -, -, -, hparams, -⟩, -⟩ := orderFrame i s u hu
    refine ⟨?_, by simpa using hparams⟩
    simp only [WritesInMemory, endCall_mem]
    rcases exec_next_cases hu with ⟨-, rfl⟩ | ⟨-, hran⟩
    · exact .inl (by simp)
    · simpa [WritesInMemory] using hran.writesInMemory
  · exact ⟨.inl rfl, rfl⟩
  rcases deliver_next_cases hd with ⟨cls, fn, dev, -, rfl⟩ | ⟨a, v, -, ha, rfl⟩ | ⟨j, v, -, rfl⟩ |
    ⟨v, -, rfl⟩ | ⟨v, -, rfl⟩ | ⟨v, -, rfl⟩ | ⟨d, u, f, -, rfl⟩ | ⟨b, -, rfl⟩ | ⟨d, -, rfl⟩ |
    ⟨d, -, rfl⟩
  · obtain ⟨hm, hp⟩ := dispatch_mem_params cls fn dev { s with inputs := rest }
    exact ⟨.inl hm, hp⟩
  · exact ⟨.of_writeWord ha rfl, rfl⟩
  -- the registers, the store, the console and a construction
  iterate 7 exact ⟨.inl rfl, rfl⟩
  · obtain ⟨hm, hp⟩ := teardown_mem_params d { s with inputs := rest }
    exact ⟨.inl hm, hp⟩

/-- Settles O45: the words a step writes lie in memory, so their cells do, and a write keeps the
canonical form. -/
theorem stepKeepsMemory : Obligations.StepKeepsMemory := by
  intro s t ⟨hwf, hin⟩ ht
  obtain ⟨hmem | ⟨a, ws, ha, hmem⟩, hparams⟩ := step_mem_params ht <;>
    rw [State.MemOk, hmem, hparams]
  · exact ⟨hwf, hin⟩
  refine ⟨wf_writeWords ws s.mem a hwf, fun c hc => ?_⟩
  rcases key_of_mem_writeWords ws s.mem a c hc with ⟨k, hk, e⟩ | hc
  · have hlt := ha k hk
    omega
  · exact hin c hc

/-- Settles O51: no input and no order touches the parameters; the rest is the frame of an order. -/
theorem stepKeepsConfiguration : Obligations.StepKeepsConfiguration := by
  intro s t ht
  refine ⟨(step_mem_params ht).2, fun hrun => ?_⟩
  rcases step_running_cases hrun ht with ⟨r, -, rfl⟩ | ⟨i, u, -, hu, rfl⟩
  · simp
  · obtain ⟨⟨hacc, -, -, hstore, -, hinputs, hlive, -, hdev, hothers, hcin, hcout, hpanel⟩, -⟩ :=
      orderFrame i s u hu
    simp [*]

/-! ### The status -/

/-- The own part of an order changes not-ready bits of the status only (R22, R140). -/
theorem Ran.keeps_unmasked_status {i : Instr} {s t : State} (hran : Ran i s t) :
    t.status &&& ~~~s.params.notReadyMask = s.status &&& ~~~s.params.notReadyMask := by
  rcases hran.status_cases with e | ⟨e, -⟩ | ⟨e, -⟩ <;> rw [e]
  · ext k hk
    cases h : s.params.notReadyMask[k] <;> simp [h]
  · rw [BitVec.and_assoc, BitVec.and_self]

/-- A step of the running interpreter changes not-ready bits of the status only. -/
theorem step_keeps_unmasked_status {s t : State} (hrun : s.run = .running)
    (ht : step s = .next t) :
    t.status &&& ~~~s.params.notReadyMask = s.status &&& ~~~s.params.notReadyMask := by
  rcases step_running_cases hrun ht with ⟨r, -, rfl⟩ | ⟨i, u, -, hu, rfl⟩
  · rfl
  rw [endCall_status]
  rcases exec_next_cases hu with ⟨-, rfl⟩ | ⟨-, hran⟩
  · simp
  · simpa using hran.keeps_unmasked_status

/-- The other instances are not touched while a channel program runs (R109). -/
theorem step_running_others {s t : State} (hrun : s.run = .running) (ht : step s = .next t) :
    t.others = s.others := by
  obtain ⟨-, -, -, hothers, -⟩ := (stepKeepsConfiguration s t ht).2 hrun
  exact hothers

/-- Settles O46: a new controller has the reset status, and a teardown keeps the status. -/
theorem stepKeepsStatus : Obligations.StepKeepsStatus := by
  intro s t hI ht
  rw [State.StatusOk, (step_mem_params ht).2]
  exact controllers_of_step (fun _ _ _ h => h) (fun _ => rfl) (fun _ h => by simpa using h)
    (fun hrun h => ⟨(step_keeps_unmasked_status hrun ht).trans h, step_running_others hrun ht⟩)
    hI ht

end Sys2Proof.Machine
end

section
/-! PROOF. What a step keeps of every controller: the unit fields (R24, R25), the event history
(R37, R64), and that the instances have different addresses and none but the one in hand runs
(R109). -/

namespace Sys2Proof.Machine

open Sys2Proof.Config

/-! ### The unit fields -/

/-- The selected unit of a controller is its open one whenever a file is open, and under
`UNIT_FIELD_POLICY = fault` both are 0 to 3 (R24, R25). -/
def UnitFieldsOk (p : UnitFieldPolicy) (sel op : Option UnitIndex) : Prop :=
  (op = none ∨ op = sel) ∧
    (p = .fault → (∀ u ∈ sel, u.val < 4) ∧ (∀ u ∈ op, u.val < 4))

/-- The two invariants of the unit fields, controller by controller. -/
theorem selectionOk_and_unitsOk_iff (s : State) :
    s.SelectionOk ∧ s.UnitsOk ↔
      ∀ c ∈ s.controllers, UnitFieldsOk s.params.unitFieldPolicy c.selUnit c.openUnit := by
  constructor
  · rintro ⟨hsel, hunits⟩ c hc
    exact ⟨hsel c hc, fun hp => hunits hp c hc⟩
  · intro h
    exact ⟨fun c hc => (h c hc).1, fun hp c hc => (h c hc).2 hp⟩

/-- A unit index that the `fault` policy answers is 0 to 3 (R96). -/
theorem unitIndex_fault_lt {f : BitVec 4} {u : UnitIndex} (h : unitIndex .fault f = .ok u) :
    u.val < 4 := by
  rw [unitIndexOfEveryField.1 f] at h
  split_ifs at h <;> cases h <;> decide

/-- After a SelectUnit's change the unit is open, or no file is. -/
theorem changeUnit_openUnit (u : UnitIndex) (s : State) :
    (changeUnit u s).openUnit = some u ∨ (changeUnit u s).openUnit = none := by
  rcases changeUnit_cases u s with ⟨ho, e⟩ | ⟨-, -, e⟩ | ⟨-, -, e⟩ <;> rw [e]
  · exact .inl ho
  · exact .inl rfl
  · exact .inr rfl

/-- The own part of an order keeps the unit fields well formed. -/
theorem Ran.keeps_unitFieldsOk {i : Instr} {s t : State} (hran : Ran i s t)
    (hI : UnitFieldsOk s.params.unitFieldPolicy s.selUnit s.openUnit) :
    UnitFieldsOk s.params.unitFieldPolicy t.selUnit t.openUnit := by
  by_cases hk : i.kind = .selUnit
  · cases hran with
    | selUnit c f u _ hu =>
      have hlt (hp : s.params.unitFieldPolicy = .fault) : u.val < 4 :=
        unitIndex_fault_lt (hp ▸ hu)
      rcases changeUnit_openUnit u (selectUnit u s) with e | e <;>
        simpa [UnitFieldsOk, e] using hlt
    | selUnitBad => exact hI
    | _ => cases hk
  · obtain ⟨hsel, hopen⟩ := hran.keeps_units hk
    rwa [hsel, hopen]

/-- A step of the running interpreter keeps the unit fields well formed. -/
theorem step_keeps_unitFieldsOk {s t : State} (hrun : s.run = .running) (ht : step s = .next t)
    (hI : UnitFieldsOk s.params.unitFieldPolicy s.selUnit s.openUnit) :
    UnitFieldsOk s.params.unitFieldPolicy t.selUnit t.openUnit := by
  rcases step_running_cases hrun ht with ⟨r, -, rfl⟩ | ⟨i, u, -, hu, rfl⟩
  · exact hI
  rw [endCall_selUnit, endCall_openUnit]
  rcases exec_next_cases hu with ⟨-, rfl⟩ | ⟨-, hran⟩
  · simpa using hI
  · simpa using hran.keeps_unitFieldsOk (by simpa using hI)

/-- Settles O47: a new controller has no unit selected and none open, and a teardown leaves none
open. -/
theorem stepKeepsUnits : Obligations.StepKeepsUnits := by
  intro s t hsel hunits ht
  rw [selectionOk_and_unitsOk_iff, (step_mem_params ht).2]
  have hI := (selectionOk_and_unitsOk_iff s).mp ⟨hsel, hunits⟩
  refine controllers_of_step (fun _ _ _ h => h) (fun d => ?_) (fun u h => ?_)
    (fun hrun h => ⟨step_keeps_unitFieldsOk hrun ht h, step_running_others hrun ht⟩) hI ht
  · exact ⟨.inl rfl, fun _ => ⟨nofun, nofun⟩⟩
  · exact ⟨.inl (by simp), fun hp => ⟨by simpa using (h.2 hp).1, by simp⟩⟩

/-! ### The event history -/

/-- A history is replayed piece by piece. -/
theorem replayFrom_append (cur : Option UnitIndex) (es es' : List Event) :
    replayFrom cur (es ++ es') = (replayFrom cur es).bind (replayFrom · es') := by
  induction es generalizing cur with
  | nil => rfl
  | cons e es ih =>
    cases e <;> simp only [List.cons_append, replayFrom] <;> split <;> simp [ih]

/-- The history of a state leaves open exactly the open unit. -/
def HistoryOkOf (s : State) : Prop := replayFrom none s.events = some s.openUnit

/-- Events that lead from the open unit of `s` to that of `t` keep the history well formed. -/
theorem HistoryOkOf.of_append {s t : State} {es : List Event} (h : HistoryOkOf s)
    (he : t.events = s.events ++ es) (hes : replayFrom s.openUnit es = some t.openUnit) :
    HistoryOkOf t := by
  rw [HistoryOkOf, he, replayFrom_append, h, Option.bind_some, hes]

theorem replayFrom_close (cur : Option UnitIndex) :
    replayFrom cur (cur.toList.map Event.closed) = some none := by
  cases cur <;> simp [replayFrom]

/-- Closing the open file keeps the history well formed. -/
theorem closeOpen_keeps_history {s : State} (h : HistoryOkOf s) : HistoryOkOf (closeOpen s) :=
  h.of_append (closeOpen_events s) (by simp [replayFrom_close])

/-- A close of the open unit, if there is one, and an open. -/
theorem replayFrom_close_open (cur : Option UnitIndex) (u : UnitIndex) (ok : Bool) :
    replayFrom cur (cur.toList.map Event.closed ++ [.opened u ok]) =
      some (if ok then some u else none) := by
  rw [replayFrom_append, replayFrom_close]
  simp [replayFrom]

/-- A unit change closes the open file before it opens another (R148). -/
theorem changeUnit_keeps_history {u : UnitIndex} {s : State} (h : HistoryOkOf s) :
    HistoryOkOf (changeUnit u s) := by
  rcases changeUnit_cases u s with ⟨-, e⟩ | ⟨-, -, e⟩ | ⟨-, -, e⟩ <;> rw [e]
  · exact h
  · exact h.of_append (List.append_assoc ..) (replayFrom_close_open s.openUnit u true)
  · exact h.of_append (List.append_assoc ..) (replayFrom_close_open s.openUnit u false)

/-- The own part of an order keeps the history well formed: a Read reads the open unit. -/
theorem Ran.keeps_history {i : Instr} {s t : State} (hran : Ran i s t) (h : HistoryOkOf s) :
    HistoryOkOf t := by
  have hread {u : UnitIndex} (off n : Nat) (ho : s.openUnit = some u) :
      replayFrom s.openUnit [.readBytes u off n] = some s.openUnit := by
    simp [replayFrom, ho]
  cases hran with
  | selUnit _ _ u => exact changeUnit_keeps_history (s := selectUnit u s) h
  | readShort _ _ _ _ _ _ _ _ _ ho => exact h.of_append rfl (hread _ _ ho)
  | read _ _ _ _ _ _ _ _ _ ho => exact h.of_append rfl (hread _ _ ho)
  | _ => exact h

/-- A step of the running interpreter keeps the history well formed. -/
theorem step_keeps_history {s t : State} (hrun : s.run = .running) (ht : step s = .next t)
    (h : HistoryOkOf s) : HistoryOkOf t := by
  rcases step_running_cases hrun ht with ⟨r, -, rfl⟩ | ⟨i, u, -, hu, rfl⟩
  · exact h
  have hu' : HistoryOkOf u := by
    rcases exec_next_cases hu with ⟨-, rfl⟩ | ⟨-, hran⟩
    · simpa [HistoryOkOf] using h
    · exact hran.keeps_history (by simpa [HistoryOkOf] using h)
  simpa [HistoryOkOf] using hu'

/-- Settles O48: a new history is empty, a teardown closes the open file, and a running step keeps
the history. -/
theorem stepKeepsOneOpenFile : Obligations.StepKeepsOneOpenFile := by
  intro s t hI ht
  exact controllers_of_step (Q := fun c => replayFrom none c.events = some c.openUnit)
    (fun _ _ _ h => h) (fun _ => rfl) (fun u h => closeOpen_keeps_history (s := u) h)
    (fun hrun h => ⟨step_keeps_history hrun ht h, step_running_others hrun ht⟩) hI ht

/-! ### The instances -/

/-- The instances' addresses and the others' run states are all `InstancesOk` looks at. -/
theorem instancesOk_congr {s t : State} (h : s.InstancesOk) (hdev : t.dev = s.dev)
    (hlive : t.live = s.live) (hothers : t.others = s.others) : t.InstancesOk := by
  have haddr : (allInstances t).map Controller.dev = (allInstances s).map Controller.dev := by
    simp only [allInstances, hlive, hothers]
    split <;> simp [hdev]
  exact ⟨haddr ▸ h.1, hothers ▸ h.2⟩

/-- Every controller of an idle machine is idle. -/
theorem idle_of_mem_allInstances {s : State} (h : s.InstancesOk) (hidle : s.run = .idle)
    {c : Controller} (hc : c ∈ allInstances s) : c.run = .idle := by
  simp only [allInstances] at hc
  split at hc
  · rcases List.mem_cons.mp hc with rfl | hc
    · exact hidle
    · exact h.2 c hc
  · exact h.2 c hc

/-- Taking a controller in hand replaces any record at its address and puts the one in hand back. -/
theorem instancesOk_bringIn {s : State} (h : s.InstancesOk) (hidle : s.run = .idle)
    (c : Controller) : (bringIn c s).InstancesOk := by
  refine ⟨?_, fun d hd => ?_⟩
  · have hsub := (List.filter_sublist (p := fun d => d.dev != c.dev) (l := allInstances s)).map
      Controller.dev
    simp only [allInstances, bringIn_live, if_true, inHand_bringIn, bringIn_others, List.map_cons,
      List.nodup_cons]
    exact ⟨by simp, h.1.sublist hsub⟩
  · exact idle_of_mem_allInstances h hidle (List.mem_filter.mp hd).1

/-- Addressing an idle machine keeps the instances. -/
theorem instancesOk_address {dev : Nat} {s t : State} (h : s.InstancesOk) (hidle : s.run = .idle)
    (ht : address dev s = some t) : t.InstancesOk := by
  rcases (address_some ht).2.2 with rfl | ⟨c, -, rfl⟩
  · exact h
  · exact instancesOk_bringIn h hidle c

/-- A dispatch call to an idle machine keeps the instances. -/
theorem instancesOk_dispatch {s : State} (h : s.InstancesOk) (hidle : s.run = .idle)
    (cls : IoClass) (fn dev : Nat) : (dispatch cls fn dev s).InstancesOk := by
  rcases dispatch_cases cls fn dev s with ⟨t, ht, -, -, e⟩ | ⟨t, ht, -, e⟩ | ⟨-, e⟩ <;> rw [e]
  · exact instancesOk_congr (instancesOk_address h hidle ht) rfl rfl rfl
  · exact instancesOk_congr (instancesOk_address h hidle ht) rfl rfl rfl
  · rcases deviceCall_cases cls fn dev s with e | ⟨_, _, _, _, _, _, _, _, e⟩ <;> rw [e] <;>
      exact instancesOk_congr h rfl rfl rfl

/-- A teardown leaves the other instances. -/
theorem instancesOk_teardown {s : State} (h : s.InstancesOk) (hidle : s.run = .idle)
    (dev : Nat) : (teardown dev s).InstancesOk := by
  simp only [teardown]
  split
  · rename_i t ht
    obtain ⟨hnodup, hothers⟩ := instancesOk_address h hidle ht
    have hsub : t.others.Sublist (allInstances t) := by
      simp only [allInstances]
      split
      · exact List.sublist_cons_self ..
      · exact List.Sublist.refl _
    have hall : allInstances { closeOpen t with live := false } = t.others :=
      (if_neg Bool.false_ne_true).trans (closeOpen_others t)
    refine ⟨hall ▸ hnodup.sublist (hsub.map _), fun c hc => hothers c ?_⟩
    simpa using hc
  · exact h

/-- Settles O49: a running step touches no address, and an idle machine's inputs keep the
instances. -/
theorem stepKeepsInstances : Obligations.StepKeepsInstances := by
  intro s t hI ht
  by_cases hrun : s.run = .running
  · obtain ⟨-, -, -, hothers, hdev, hlive, -⟩ := (stepKeepsConfiguration s t ht).2 hrun
    exact instancesOk_congr hI hdev hlive hothers
  rcases step_next_cases ht with ⟨hr, -⟩ | ⟨hr, -⟩ | ⟨-, -, rfl⟩ | ⟨hidle, i, rest, -, hd⟩
  · exact absurd hr hrun
  · exact absurd hr hrun
  · exact hI
  have hI' : ({ s with inputs := rest } : State).InstancesOk := hI
  rcases deliver_next_cases hd with ⟨cls, fn, dev, -, rfl⟩ | ⟨a, v, -, ha, rfl⟩ | ⟨j, v, -, rfl⟩ |
    ⟨v, -, rfl⟩ | ⟨v, -, rfl⟩ | ⟨v, -, rfl⟩ | ⟨d, u, f, -, rfl⟩ | ⟨b, -, rfl⟩ | ⟨d, -, rfl⟩ |
    ⟨d, -, rfl⟩
  · exact instancesOk_dispatch hI' hidle cls fn dev
  -- memory, the registers, the store and the console
  iterate 7 exact hI
  · exact instancesOk_bringIn hI' hidle _
  · exact instancesOk_teardown hI' hidle d

/-- Settles O50: at reset there is one controller record, a new one. -/
theorem resetMeetsInvariants : Obligations.ResetMeetsInvariants := by
  have hall {Q : Controller → Prop} (h : Q (inHand State.reset)) :
      ∀ c ∈ State.reset.controllers, Q c := by
    simpa [State.controllers, State.reset] using h
  exact ⟨⟨wf_reset, nofun⟩, hall rfl, hall (.inl rfl), fun _ => hall ⟨nofun, nofun⟩, hall rfl,
    ⟨List.nodup_singleton _, nofun⟩, ⟨by decide, by decide⟩, by decide, by decide⟩

end Sys2Proof.Machine
end

section
/-! PROOF. A running step and what the CPU does next (R14, R71): a step of the running interpreter
takes the pending inputs and the accumulator along, and depends on neither. -/

namespace Sys2Proof.Machine

open Sys2Proof.Config

/-- The state with other pending inputs and another accumulator. -/
def withCpu (xs : List Input) (a : Word) (s : State) : State := { s with inputs := xs, acc := a }

section
variable (xs : List Input) (a : Word)

theorem afterCond_withCpu (c : Bool) (s : State) :
    afterCond c (withCpu xs a s) = withCpu xs a (afterCond c s) := by
  cases c <;> rfl

theorem selectUnit_withCpu (u : UnitIndex) (s : State) :
    selectUnit u (withCpu xs a s) = withCpu xs a (selectUnit u s) := rfl

/-- A unit change takes the inputs and the accumulator along. -/
theorem changeUnit_withCpu (u : UnitIndex) (s : State) :
    changeUnit u (withCpu xs a s) = withCpu xs a (changeUnit u s) := by
  rcases changeUnit_cases u s with ⟨h, e⟩ | ⟨h, hp, e⟩ | ⟨h, hp, e⟩ <;> rw [e]
  · exact changeUnit_of_open h
  · exact changeUnit_of_present (s := withCpu xs a s) h hp
  · exact changeUnit_of_absent (s := withCpu xs a s) h hp

/-- The own part of an order takes the inputs and the accumulator along. -/
theorem Ran.on_withCpu {i : Instr} {s t : State} (hran : Ran i s t) :
    Ran i (withCpu xs a s) (withCpu xs a t) := by
  cases hran with
  | selUnit c f u _ hu =>
    have h := Ran.selUnit c f u (withCpu xs a s) hu
    rwa [selectUnit_withCpu, changeUnit_withCpu] at h
  | readNotReady c rs tr h r _ ho => exact .readNotReady c rs tr h r (withCpu xs a s) ho
  | readNoChannel c rs tr h r _ u ho hd =>
    exact .readNoChannel c rs tr h r (withCpu xs a s) u ho hd
  | readZeroCount c rs tr h r _ u ch ho hd hc =>
    exact .readZeroCount c rs tr h r (withCpu xs a s) u ch ho hd hc
  | readOutside c rs tr h r _ u ch b n ho hd hc ha =>
    exact .readOutside c rs tr h r (withCpu xs a s) u ch b n ho hd hc ha
  | readShort c rs tr h r _ u ch n ho hd hc ha hl =>
    exact .readShort c rs tr h r (withCpu xs a s) u ch n ho hd hc ha hl
  | read c rs tr h r _ u ch n ho hd hc ha hl =>
    exact .read c rs tr h r (withCpu xs a s) u ch n ho hd hc ha hl
  | _ => constructor <;> assumption

/-- An order takes the inputs and the accumulator along. -/
theorem exec_withCpu {i : Instr} {s t : State} (h : exec i s = .next t) :
    exec i (withCpu xs a s) = .next (withCpu xs a t) := by
  rcases exec_next_cases h with ⟨hc, rfl⟩ | ⟨hc, hran⟩
  · refine (exec_of_not_condHolds (s := withCpu xs a s) hc).trans ?_
    rw [← advance_afterCond, afterCond_withCpu]
    rfl
  · refine exec_of_ran hc ?_
    rw [afterCond_withCpu]
    exact hran.on_withCpu xs a

theorem endCall_withCpu (s : State) : endCall (withCpu xs a s) = withCpu xs a (endCall s) := by
  have hskip : successSkip (withCpu xs a s) = withCpu xs a (successSkip s) := by
    by_cases h : s.keys &&& s.params.skipModeMask = 0
    · rw [(successSkipResult s).2 h]
      exact (successSkipResult (withCpu xs a s)).2 h
    · rw [(successSkipResult s).1 h]
      exact (successSkipResult (withCpu xs a s)).1 h
  rw [endCall_eq, endCall_eq, hskip]
  exact (apply_ite (withCpu xs a) _ _ _).symm

end

/-- Settles O52: the fetch reads memory and the parameters only. -/
theorem runningStepIgnoresInputs : Obligations.RunningStepIgnoresInputs := by
  intro s t xs a hrun ht
  change step (withCpu xs a s) = .next (withCpu xs a t)
  have hfetch : fetch (withCpu xs a s) = fetch s := rfl
  have hrun' : (withCpu xs a s).run = .running := hrun
  rcases step_running_cases hrun ht with ⟨r, hf, rfl⟩ | ⟨i, u, hf, hu, rfl⟩
  · exact step_of_fetch_error hrun' (hfetch.trans hf)
  · rw [step_of_fetch_ok hrun' (hfetch.trans hf) (exec_withCpu xs a hu), endCall_withCpu]

end Sys2Proof.Machine
end

section
/-! PROOF. The dispatch contract, construction and teardown (R100 to R109, R217 to R221, R230,
R233): an idle machine takes its next input. -/

namespace Sys2Proof.Machine

open Sys2Proof.Config

/-! ### Calls to a controller -/

/-- An idle machine whose next input is a call dispatches it (R100). -/
theorem step_call {s : State} {rest : List Input} {cls : IoClass} {fn dev : Nat}
    (hidle : s.run = .idle) (hi : s.inputs = .call cls fn dev :: rest) :
    step s = .next (dispatch cls fn dev { s with inputs := rest }) :=
  step_idle hidle hi

theorem dispatch_of_some {cls : IoClass} {fn dev : Nat} {s t : State}
    (h : address dev s = some t) : dispatch cls fn dev s = diskCall cls fn dev t := by
  simp [dispatch, h]

theorem dispatch_of_none {cls : IoClass} {fn dev : Nat} {s : State} (h : address dev s = none) :
    dispatch cls fn dev s = deviceCall cls fn dev s := by
  simp [dispatch, h]

theorem diskCall_loadOar (dev : Nat) (s : State) :
    diskCall .output s.params.loadOarFn dev s = loadOar s :=
  if_pos ⟨rfl, rfl⟩

theorem diskCall_other {cls : IoClass} {fn : Nat} {s : State} (dev : Nat)
    (h : cls ≠ .output ∨ fn ≠ s.params.loadOarFn) :
    diskCall cls fn dev s = raise (.unsupportedFunction cls fn dev) s :=
  if_neg (not_and_or.mpr h)

theorem address_self {s : State} (h : s.live = true) : address s.dev s = some s :=
  if_pos ⟨rfl, h⟩

/-- The addressed controller is another one, taken from the list of the others. -/
theorem address_other {dev : Nat} {s : State} {c : Controller} (h : dev ≠ s.dev ∨ s.live = false)
    (hc : s.others.find? (fun d => d.dev == dev) = some c) :
    address dev s = some (bringIn c s) := by
  rw [address, if_neg (by simpa [imp_iff_not_or] using h), hc]
  rfl

/-- The other instances after `c` was taken in hand. -/
theorem mem_others_bringIn (c d : Controller) (s : State) :
    d ∈ (bringIn c s).others ↔ d ∈ allInstances s ∧ d.dev ≠ c.dev := by
  simp

/-- Settles O53: the addressed controller is brought in hand, and load OAR is the function it
recognizes. -/
theorem loadOarStartsAProgram : Obligations.LoadOarStartsAProgram := by
  refine ⟨fun s rest hidle hlive hi => ?_, fun s rest dev c hidle hi hdev hc => ?_⟩
  · have haddr : address s.dev { s with inputs := rest } = some { s with inputs := rest } :=
      address_self (s := { s with inputs := rest }) hlive
    rw [step_call hidle hi, dispatch_of_some haddr]
    exact congrArg Host.Outcome.next (diskCall_loadOar s.dev { s with inputs := rest })
  · have haddr :
        address dev { s with inputs := rest } = some (bringIn c { s with inputs := rest }) :=
      address_other (s := { s with inputs := rest }) hdev hc
    have hcdev : c.dev = dev := by simpa using List.find?_some hc
    refine ⟨loadOar (bringIn c { s with inputs := rest }), ?_, rfl, rfl, fun d => ?_, rfl⟩
    · rw [step_call hidle hi, dispatch_of_some haddr]
      exact congrArg Host.Outcome.next (diskCall_loadOar dev (bringIn c { s with inputs := rest }))
    · rw [← hcdev]
      exact mem_others_bringIn c d { s with inputs := rest }

/-- Settles O54: the addressed controller recognizes load OAR only. -/
theorem otherDiskCallsAreFatal : Obligations.OtherDiskCallsAreFatal := by
  intro s u rest cls fn dev hidle hi haddr hother
  have hparams : u.params = s.params := (address_mem_params haddr).2
  rw [step_call hidle hi, dispatch_of_some haddr, diskCall_other dev (hparams ▸ hother)]
  rfl

/-! ### Calls to the other devices -/

/-- A call to an address of no controller goes to the registry's device (R100). -/
theorem step_deviceCall {s : State} {rest : List Input} {cls : IoClass} {fn dev : Nat}
    (hidle : s.run = .idle) (hi : s.inputs = .call cls fn dev :: rest)
    (haddr : address dev s = none) :
    step s = .next (deviceCall cls fn dev { s with inputs := rest }) := by
  rw [step_call hidle hi, dispatch_of_none (address_none_inputs haddr rest)]

section
variable {s : State} {cls : IoClass} {fn dev : Nat}

theorem deviceCall_unhandled
    (h : handlerAt s dev = none ∨ handlerAt s dev = some .genericNull) :
    deviceCall cls fn dev s = raise (.unsupportedFunction cls fn dev) s := by
  rcases h with h | h <;> simp [deviceCall, h]

theorem deviceCall_console (h : handlerAt s dev = some .console)
    (hr : recognizes s .console cls fn = true) :
    deviceCall cls fn dev s = consoleCall cls fn dev s := by
  simp [deviceCall, h, hr]

theorem deviceCall_tape (h : handlerAt s dev = some .tape)
    (hr : recognizes s .tape cls fn = true) : deviceCall cls fn dev s = tapeCall cls fn s := by
  simp [deviceCall, h, hr]

theorem deviceCall_controlPanel (h : handlerAt s dev = some .controlPanel)
    (hr : recognizes s .controlPanel cls fn = true) :
    deviceCall cls fn dev s = panelCall cls fn s := by
  simp [deviceCall, h, hr]

theorem deviceCall_unrecognized {hd : Handler} (h : handlerAt s dev = some hd)
    (hr : recognizes s hd cls fn = false) :
    deviceCall cls fn dev s = raise (.unsupportedFunction cls fn dev) s := by
  cases hd <;> simp [deviceCall, h, hr]

end

/-- Settles O55: no handler and the generic-null one raise F3. -/
theorem unhandledDeviceIsFatal : Obligations.UnhandledDeviceIsFatal := by
  refine ⟨fun cls => by cases cls <;> simp, fun s rest cls fn dev hidle hi haddr hh => ?_⟩
  rw [step_deviceCall hidle hi haddr, deviceCall_unhandled (s := { s with inputs := rest }) hh]
  rfl

/-- Settles O57: the registry's device answers, or does not recognize the function. -/
theorem tapeAndPanelResult : Obligations.TapeAndPanelResult := by
  intro s rest cls fn dev hidle hi haddr
  rw [step_deviceCall hidle hi haddr]
  refine ⟨fun h hr => ?_, fun h hr => ?_, fun hd h hr => ?_⟩
  · rw [deviceCall_tape (s := { s with inputs := rest }) h hr]
    cases cls <;> rfl
  · rw [deviceCall_controlPanel (s := { s with inputs := rest }) h hr]
    cases cls <;> rfl
  · rw [deviceCall_unrecognized (s := { s with inputs := rest }) h hr]
    rfl

/-- Settles O56: the console's four classes, class 2 with input pending and without. -/
theorem consoleResult : Obligations.ConsoleResult := by
  intro s rest cls fn dev hidle hi haddr hh hr
  rw [step_deviceCall hidle hi haddr, deviceCall_console (s := { s with inputs := rest }) hh hr]
  refine ⟨?_, ?_, ?_, ?_, ?_⟩ <;> rintro rfl
  · rfl
  · cases hin : s.consoleIn <;> simp [consoleCall, signalIf]
  · rfl
  · intro b bs hin
    simp [consoleCall, consoleInput, hin, produce]
  · intro hin
    have hwait : { s with inputs := .call .input fn dev :: rest } = s := by rw [← hi]
    simp only [consoleCall]
    unfold consoleInput
    split
    · rename_i hcons
      cases hin.symm.trans hcons
    · refine congrArg Host.Outcome.next (if_congr Iff.rfl ?_ ?_)
      · cases takeKey rest with
        | none => exact hwait
        | some p => rfl
      · cases emptyRead s.draws <;> rfl

/-! ### Reset, construction and teardown -/

/-- Settles O58: a construction takes a new controller in hand. -/
theorem constructResets : Obligations.ConstructResets := by
  intro s rest dev hidle hi
  exact ⟨_, step_idle hidle hi, rfl, rfl, rfl, rfl, rfl, rfl, rfl, rfl,
    fun d => mem_others_bringIn _ d { s with inputs := rest }, rfl⟩

/-- An idle machine with nothing pending stays as it is (R231). -/
theorem step_idle_nil {s : State} (hidle : s.run = .idle) (hi : s.inputs = []) :
    step s = .next s := by
  simp [step, hidle, idleStep, hi]

/-- Settles O59: every field is read off the reset state; an idle step with nothing pending is the
identity. -/
theorem resetState : Obligations.ResetState :=
  ⟨⟨rfl, rfl, rfl, rfl, rfl, rfl⟩, step_idle_nil rfl rfl, fun _ => step_idle_nil⟩

/-- A close of the open file changes the open unit and the events only (R148, R233). -/
theorem closeOpen_eq (s : State) :
    closeOpen s = { s with
      openUnit := none, events := s.events ++ s.openUnit.toList.map Event.closed } := by
  obtain ⟨_, _, _, _, op, _⟩ := s
  cases op <;> simp [closeOpen, storeClose, appendEvent]

/-- Settles O60: teardown closes the open file of the addressed controller. -/
theorem teardownClosesTheFile : Obligations.TeardownClosesTheFile := by
  intro s u rest dev hidle hi haddr
  have hdown : teardown dev { s with inputs := rest } = { closeOpen u with live := false } := by
    simp [teardown, haddr]
  rw [step_idle hidle hi]
  exact congrArg Host.Outcome.next (hdown.trans (by rw [closeOpen_eq]))

end Sys2Proof.Machine
end
